-- ==== Sys2Proof/Word.lean ====
section
/-! DEFINITION. The two word types of the core (spec 00_scope.md R7): a byte and an address. -/

namespace Sys2Proof

/-- Data width: registers, flags' byte image, memory bytes, operand bytes (R7). -/
abbrev Byte := BitVec 8

/-- Address width: `PC`, effective addresses, operand words (R7). Every address is already reduced modulo 65536. -/
abbrev Addr := BitVec 16

end Sys2Proof
end

