-- ==== Sys2Proof/Syntax.lean ====
section
/-! DEFINITION. The instructions: one constructor for each of the 42 rows of spec/opcode_table.json (30_encoding.md
R56), with its operand as R52 assembles it; and the operation, addressing-mode and register-tag names of R50 and
40_sequencer_and_addressing.md R73. -/

namespace Sys2Proof

/-- One row of the opcode table with its operand: `v` an immediate value, `b` a zero-page byte (address, base or
pointer address), `w` an operand word `{hi, lo}` (R51, R52). -/
inductive Instr where
  | ldaImmediate (v : Byte)
  | ldaZeroPage  (b : Byte)
  | ldaZeroPageX (b : Byte)
  | ldaAbsolute  (w : Addr)
  | ldaAbsoluteX (w : Addr)
  | ldaAbsoluteY (w : Addr)
  | ldaIndirectX (b : Byte)
  | ldaIndirectY (b : Byte)
  | ldxImmediate (v : Byte)
  | ldxZeroPage  (b : Byte)
  | ldxZeroPageY (b : Byte)
  | ldxAbsolute  (w : Addr)
  | ldxAbsoluteY (w : Addr)
  | ldyImmediate (v : Byte)
  | ldyZeroPage  (b : Byte)
  | ldyZeroPageX (b : Byte)
  | ldyAbsolute  (w : Addr)
  | ldyAbsoluteX (w : Addr)
  | staZeroPage  (b : Byte)
  | staZeroPageX (b : Byte)
  | staAbsolute  (w : Addr)
  | staAbsoluteX (w : Addr)
  | staAbsoluteY (w : Addr)
  | staIndirectX (b : Byte)
  | staIndirectY (b : Byte)
  | stxZeroPage  (b : Byte)
  | stxZeroPageY (b : Byte)
  | stxAbsolute  (w : Addr)
  | styZeroPage  (b : Byte)
  | styZeroPageX (b : Byte)
  | styAbsolute  (w : Addr)
  | jmpAbsolute  (w : Addr)
  | jmpIndirect  (w : Addr)
  | jsrAbsolute  (w : Addr)
  | rts
  | pha
  | php
  | pla
  | plp
  | tsx
  | txs
  | nop
  deriving DecidableEq, Repr

/-- The sixteen operations (R73). -/
inductive Operation where
  | lda | ldx | ldy | sta | stx | sty | jmp | jsr | rts | pha | php | pla | plp | tsx | txs | nop
  deriving DecidableEq, Repr

/-- The eleven addressing modes (R50). -/
inductive Mode where
  | implied | immediate | zeroPage | zeroPageX | zeroPageY | absolute | absoluteX | absoluteY | indirect
  | indirectX | indirectY
  deriving DecidableEq, Repr

/-- The register tag (R73): accumulator, index X, index Y. -/
inductive Tag where
  | a | x | y
  deriving DecidableEq, Repr

/-- The operation of an instruction (R56). -/
def Instr.operation : Instr → Operation
  | .ldaImmediate _ | .ldaZeroPage _ | .ldaZeroPageX _ | .ldaAbsolute _ | .ldaAbsoluteX _ | .ldaAbsoluteY _
  | .ldaIndirectX _ | .ldaIndirectY _ => .lda
  | .ldxImmediate _ | .ldxZeroPage _ | .ldxZeroPageY _ | .ldxAbsolute _ | .ldxAbsoluteY _ => .ldx
  | .ldyImmediate _ | .ldyZeroPage _ | .ldyZeroPageX _ | .ldyAbsolute _ | .ldyAbsoluteX _ => .ldy
  | .staZeroPage _ | .staZeroPageX _ | .staAbsolute _ | .staAbsoluteX _ | .staAbsoluteY _ | .staIndirectX _
  | .staIndirectY _ => .sta
  | .stxZeroPage _ | .stxZeroPageY _ | .stxAbsolute _ => .stx
  | .styZeroPage _ | .styZeroPageX _ | .styAbsolute _ => .sty
  | .jmpAbsolute _ | .jmpIndirect _ => .jmp
  | .jsrAbsolute _ => .jsr
  | .rts => .rts
  | .pha => .pha
  | .php => .php
  | .pla => .pla
  | .plp => .plp
  | .tsx => .tsx
  | .txs => .txs
  | .nop => .nop

/-- The addressing mode of an instruction (R56). -/
def Instr.mode : Instr → Mode
  | .ldaImmediate _ | .ldxImmediate _ | .ldyImmediate _ => .immediate
  | .ldaZeroPage _ | .ldxZeroPage _ | .ldyZeroPage _ | .staZeroPage _ | .stxZeroPage _ | .styZeroPage _ => .zeroPage
  | .ldaZeroPageX _ | .ldyZeroPageX _ | .staZeroPageX _ | .styZeroPageX _ => .zeroPageX
  | .ldxZeroPageY _ | .stxZeroPageY _ => .zeroPageY
  | .ldaAbsolute _ | .ldxAbsolute _ | .ldyAbsolute _ | .staAbsolute _ | .stxAbsolute _ | .styAbsolute _
  | .jmpAbsolute _ | .jsrAbsolute _ => .absolute
  | .ldaAbsoluteX _ | .ldyAbsoluteX _ | .staAbsoluteX _ => .absoluteX
  | .ldaAbsoluteY _ | .ldxAbsoluteY _ | .staAbsoluteY _ => .absoluteY
  | .jmpIndirect _ => .indirect
  | .ldaIndirectX _ | .staIndirectX _ => .indirectX
  | .ldaIndirectY _ | .staIndirectY _ => .indirectY
  | .rts | .pha | .php | .pla | .plp | .tsx | .txs | .nop => .implied

end Sys2Proof
end

