-- ==== Sys2Proof/WellFormed.lean ====
section
/-! DEFINITION. Which (operation, addressing mode) pairs exist (30_encoding.md R56 and the list of pairs that do not
exist below it). Operand bytes are never checked: "every value of `op8`, `lo`, `hi` is legal in every format" (R59),
and the operand types of `Instr` hold exactly those values. -/

namespace Sys2Proof

/-- The 42 supported pairs (R56; the list is the spec's decision D1, log entry 9). -/
def supportedPair (op : Operation) (m : Mode) : Bool :=
  match op with
  | .lda => m ∈ [.immediate, .zeroPage, .zeroPageX, .absolute, .absoluteX, .absoluteY, .indirectX, .indirectY]
  | .ldx => m ∈ [.immediate, .zeroPage, .zeroPageY, .absolute, .absoluteY]
  | .ldy => m ∈ [.immediate, .zeroPage, .zeroPageX, .absolute, .absoluteX]
  | .sta => m ∈ [.zeroPage, .zeroPageX, .absolute, .absoluteX, .absoluteY, .indirectX, .indirectY]
  | .stx => m ∈ [.zeroPage, .zeroPageY, .absolute]
  | .sty => m ∈ [.zeroPage, .zeroPageX, .absolute]
  | .jmp => m ∈ [.absolute, .indirect]
  | .jsr => m ∈ [.absolute]
  | .rts | .pha | .php | .pla | .plp | .tsx | .txs | .nop => m ∈ [.implied]

/-- An instruction is well formed when its pair exists. Every term of `Instr` is (its constructors are the table's
rows), whatever its operand (R59). -/
def Instr.wellFormed (i : Instr) : Bool := supportedPair i.operation i.mode

end Sys2Proof
end

