-- ==== Sys2Proof/Decode.lean ====
section
/-! DEFINITION. Byte order, the opcode table, the decoder (total, rejecting by name) and the encoder
(20_memory.md R42; 30_encoding.md R50 to R58). -/

namespace Sys2Proof

/-! ### Bytes and words (R8, R42) -/

/-- `w[7:0]`. -/
def lowByte (w : Addr) : Byte := w.setWidth 8

/-- `w[15:8]`, the "page" of an address. -/
def highByte (w : Addr) : Byte := (w >>> 8).setWidth 8

/-- `{hi, lo}`. -/
def joinBytes (hi lo : Byte) : Addr := hi ++ lo

/-- `zext_16(b)`. -/
def zext16 (b : Byte) : Addr := b.setWidth 16

/-! ### The opcode table (R56) -/

/-- The opcode byte of each instruction (R56). Eight values are printed by the source (R54); the other 34 are the
MOS 6502's, by the spec's decision D2 (log entry 9). -/
def Instr.opcode : Instr → Byte
  | .ldaImmediate _ => 0xA9#8
  | .ldaZeroPage _  => 0xA5#8
  | .ldaZeroPageX _ => 0xB5#8
  | .ldaAbsolute _  => 0xAD#8
  | .ldaAbsoluteX _ => 0xBD#8
  | .ldaAbsoluteY _ => 0xB9#8
  | .ldaIndirectX _ => 0xA1#8
  | .ldaIndirectY _ => 0xB1#8
  | .ldxImmediate _ => 0xA2#8
  | .ldxZeroPage _  => 0xA6#8
  | .ldxZeroPageY _ => 0xB6#8
  | .ldxAbsolute _  => 0xAE#8
  | .ldxAbsoluteY _ => 0xBE#8
  | .ldyImmediate _ => 0xA0#8
  | .ldyZeroPage _  => 0xA4#8
  | .ldyZeroPageX _ => 0xB4#8
  | .ldyAbsolute _  => 0xAC#8
  | .ldyAbsoluteX _ => 0xBC#8
  | .staZeroPage _  => 0x85#8
  | .staZeroPageX _ => 0x95#8
  | .staAbsolute _  => 0x8D#8
  | .staAbsoluteX _ => 0x9D#8
  | .staAbsoluteY _ => 0x99#8
  | .staIndirectX _ => 0x81#8
  | .staIndirectY _ => 0x91#8
  | .stxZeroPage _  => 0x86#8
  | .stxZeroPageY _ => 0x96#8
  | .stxAbsolute _  => 0x8E#8
  | .styZeroPage _  => 0x84#8
  | .styZeroPageX _ => 0x94#8
  | .styAbsolute _  => 0x8C#8
  | .jmpAbsolute _  => 0x4C#8
  | .jmpIndirect _  => 0x6C#8
  | .jsrAbsolute _  => 0x20#8
  | .rts => 0x60#8
  | .pha => 0x48#8
  | .php => 0x08#8
  | .pla => 0x68#8
  | .plp => 0x28#8
  | .tsx => 0xBA#8
  | .txs => 0x9A#8
  | .nop => 0xEA#8

/-- One row of the opcode map: the byte and the pair it encodes (R53, R56). -/
structure Row where
  byte      : Byte
  operation : Operation
  mode      : Mode
  deriving DecidableEq, Repr

/-- The register tag of an operation, the mnemonic's last letter where it has a target or source register (R73). -/
def Operation.tag : Operation → Option Tag
  | .lda | .sta | .pha | .pla => some .a
  | .ldx | .stx | .tsx | .txs => some .x
  | .ldy | .sty => some .y
  | .jmp | .jsr | .rts | .php | .plp | .nop => none

/-- The load rows of R56. -/
def loadRows : List Row :=
  [⟨0xA9, .lda, .immediate⟩, ⟨0xA5, .lda, .zeroPage⟩, ⟨0xB5, .lda, .zeroPageX⟩, ⟨0xAD, .lda, .absolute⟩,
   ⟨0xBD, .lda, .absoluteX⟩, ⟨0xB9, .lda, .absoluteY⟩, ⟨0xA1, .lda, .indirectX⟩, ⟨0xB1, .lda, .indirectY⟩,
   ⟨0xA2, .ldx, .immediate⟩, ⟨0xA6, .ldx, .zeroPage⟩, ⟨0xB6, .ldx, .zeroPageY⟩, ⟨0xAE, .ldx, .absolute⟩,
   ⟨0xBE, .ldx, .absoluteY⟩, ⟨0xA0, .ldy, .immediate⟩, ⟨0xA4, .ldy, .zeroPage⟩, ⟨0xB4, .ldy, .zeroPageX⟩,
   ⟨0xAC, .ldy, .absolute⟩, ⟨0xBC, .ldy, .absoluteX⟩]

/-- The store rows of R56. -/
def storeRows : List Row :=
  [⟨0x85, .sta, .zeroPage⟩, ⟨0x95, .sta, .zeroPageX⟩, ⟨0x8D, .sta, .absolute⟩, ⟨0x9D, .sta, .absoluteX⟩,
   ⟨0x99, .sta, .absoluteY⟩, ⟨0x81, .sta, .indirectX⟩, ⟨0x91, .sta, .indirectY⟩, ⟨0x86, .stx, .zeroPage⟩,
   ⟨0x96, .stx, .zeroPageY⟩, ⟨0x8E, .stx, .absolute⟩, ⟨0x84, .sty, .zeroPage⟩, ⟨0x94, .sty, .zeroPageX⟩,
   ⟨0x8C, .sty, .absolute⟩]

/-- The rows of R56 for jumps, calls, the stack and NOP. -/
def otherRows : List Row :=
  [⟨0x4C, .jmp, .absolute⟩, ⟨0x6C, .jmp, .indirect⟩, ⟨0x20, .jsr, .absolute⟩, ⟨0x60, .rts, .implied⟩,
   ⟨0x48, .pha, .implied⟩, ⟨0x08, .php, .implied⟩, ⟨0x68, .pla, .implied⟩, ⟨0x28, .plp, .implied⟩,
   ⟨0xBA, .tsx, .implied⟩, ⟨0x9A, .txs, .implied⟩, ⟨0xEA, .nop, .implied⟩]

/-- The complete opcode map, 42 rows (R56). -/
def opcodeTable : List Row := loadRows ++ (storeRows ++ otherRows)

/-- `decode(byte)` of R55, "simply table inversion" (R53): the row whose opcode is the byte, or no match. -/
def decodeOpcode (op : Byte) : Option Row := opcodeTable.find? (fun r => r.byte == op)

/-- The instruction length in bytes, fixed by the mode (R50). -/
def Mode.length : Mode → Nat
  | .implied => 1
  | .immediate | .zeroPage | .zeroPageX | .zeroPageY | .indirectX | .indirectY => 2
  | .absolute | .absoluteX | .absoluteY | .indirect => 3

/-! ### The decoder -/

/-- Why bytes are no instruction. -/
inductive Reject where
  /-- The opcode byte is one of the 214 bytes of R58. -/
  | unsupportedOpcode (op : Byte)
  /-- The list ends before the instruction does (never the case for bytes read from memory). -/
  | truncated
  deriving DecidableEq, Repr

/-- What the decoder reads: an instruction and the bytes after it, or a rejection by name. -/
inductive Decoded where
  | instr (i : Instr) (rest : List Byte)
  | rejected (why : Reject)
  deriving DecidableEq, Repr

/-- Format B (R51): one operand byte follows the opcode. -/
def takeOperandByte (k : Byte → Instr) : List Byte → Decoded
  | b :: rest => .instr (k b) rest
  | [] => .rejected .truncated

/-- Format W (R51): the operand's low byte follows the opcode, then its high byte (R42). -/
def takeOperandWord (k : Addr → Instr) : List Byte → Decoded
  | lo :: hi :: rest => .instr (k (joinBytes hi lo)) rest
  | _ => .rejected .truncated

/-- The decoder: the opcode byte alone fixes the row (R50, R55, R56); total on any bytes. -/
def decode : List Byte → Decoded
  | [] => .rejected .truncated
  | op :: rest =>
    match op.toNat with
    | 0xA9 => takeOperandByte .ldaImmediate rest
    | 0xA5 => takeOperandByte .ldaZeroPage rest
    | 0xB5 => takeOperandByte .ldaZeroPageX rest
    | 0xAD => takeOperandWord .ldaAbsolute rest
    | 0xBD => takeOperandWord .ldaAbsoluteX rest
    | 0xB9 => takeOperandWord .ldaAbsoluteY rest
    | 0xA1 => takeOperandByte .ldaIndirectX rest
    | 0xB1 => takeOperandByte .ldaIndirectY rest
    | 0xA2 => takeOperandByte .ldxImmediate rest
    | 0xA6 => takeOperandByte .ldxZeroPage rest
    | 0xB6 => takeOperandByte .ldxZeroPageY rest
    | 0xAE => takeOperandWord .ldxAbsolute rest
    | 0xBE => takeOperandWord .ldxAbsoluteY rest
    | 0xA0 => takeOperandByte .ldyImmediate rest
    | 0xA4 => takeOperandByte .ldyZeroPage rest
    | 0xB4 => takeOperandByte .ldyZeroPageX rest
    | 0xAC => takeOperandWord .ldyAbsolute rest
    | 0xBC => takeOperandWord .ldyAbsoluteX rest
    | 0x85 => takeOperandByte .staZeroPage rest
    | 0x95 => takeOperandByte .staZeroPageX rest
    | 0x8D => takeOperandWord .staAbsolute rest
    | 0x9D => takeOperandWord .staAbsoluteX rest
    | 0x99 => takeOperandWord .staAbsoluteY rest
    | 0x81 => takeOperandByte .staIndirectX rest
    | 0x91 => takeOperandByte .staIndirectY rest
    | 0x86 => takeOperandByte .stxZeroPage rest
    | 0x96 => takeOperandByte .stxZeroPageY rest
    | 0x8E => takeOperandWord .stxAbsolute rest
    | 0x84 => takeOperandByte .styZeroPage rest
    | 0x94 => takeOperandByte .styZeroPageX rest
    | 0x8C => takeOperandWord .styAbsolute rest
    | 0x4C => takeOperandWord .jmpAbsolute rest
    | 0x6C => takeOperandWord .jmpIndirect rest
    | 0x20 => takeOperandWord .jsrAbsolute rest
    | 0x60 => .instr .rts rest
    | 0x48 => .instr .pha rest
    | 0x08 => .instr .php rest
    | 0x68 => .instr .pla rest
    | 0x28 => .instr .plp rest
    | 0xBA => .instr .tsx rest
    | 0x9A => .instr .txs rest
    | 0xEA => .instr .nop rest
    | _ => .rejected (.unsupportedOpcode op)

/-! ### The encoder -/

/-- The operand bytes in address order (R51, R42). -/
def Instr.operandBytes : Instr → List Byte
  | .ldaImmediate v | .ldxImmediate v | .ldyImmediate v => [v]
  | .ldaZeroPage b | .ldaZeroPageX b | .ldaIndirectX b | .ldaIndirectY b | .ldxZeroPage b | .ldxZeroPageY b
  | .ldyZeroPage b | .ldyZeroPageX b | .staZeroPage b | .staZeroPageX b | .staIndirectX b | .staIndirectY b
  | .stxZeroPage b | .stxZeroPageY b | .styZeroPage b | .styZeroPageX b => [b]
  | .ldaAbsolute w | .ldaAbsoluteX w | .ldaAbsoluteY w | .ldxAbsolute w | .ldxAbsoluteY w | .ldyAbsolute w
  | .ldyAbsoluteX w | .staAbsolute w | .staAbsoluteX w | .staAbsoluteY w | .stxAbsolute w | .styAbsolute w
  | .jmpAbsolute w | .jmpIndirect w | .jsrAbsolute w => [lowByte w, highByte w]
  | .rts | .pha | .php | .pla | .plp | .tsx | .txs | .nop => []

/-- The bytes of an instruction, opcode first (R50, R42). -/
def encode (i : Instr) : List Byte := i.opcode :: i.operandBytes

/-! ### The host's numbering of an instruction's bits -/

/-- The first three bytes (the longest instruction, R50) of a number whose bit 0 is the least significant bit of
the first byte (R51: `opcode = w[7:0]`, `op8 = lo = w[15:8]`, `hi = w[23:16]`). -/
def bytesOfTableWord (nbits w : Nat) : List Byte :=
  let v := w % 2 ^ nbits
  [BitVec.ofNat 8 v, BitVec.ofNat 8 (v / 256), BitVec.ofNat 8 (v / 65536)]

/-- The instruction the decoder reads from the bits `w` of an opcode-table row. -/
def decodeTableWord (nbits w : Nat) : Option Instr :=
  match decode (bytesOfTableWord nbits w) with
  | .instr i _ => some i
  | .rejected _ => none

end Sys2Proof
end

