-- ==== Sys2Proof/Config.lean ====
section
/-! DEFINITION. The two parameters the spec leaves OPEN (00_scope.md R7): `RESET_PC` and `INIT_MEM`. -/

namespace Sys2Proof

/-- `RESET_PC` of `State.reset`. DESIGN CHOICE (log entry 1, unsafe): R24 and D9 leave it OPEN, a 16-bit argument.
The host's reset operation `resetProcessor` takes any value. -/
def Config.resetPc : Addr := 0x0000#16

/-- `INIT_MEM`: what an address that nothing has written reads as. DESIGN CHOICE (log entry 2, unsafe): the parameter
is OPEN (R24, D10); this is the default the spec gives, all 0x00. -/
def Config.initByte : Byte := 0x00#8

end Sys2Proof
end

