-- ==== Sys2Proof/Machine/State.lean ====
section
/-! DEFINITION. The state of the core (10_state.md R10 to R25), its value at reset, and the reasons a step stops. -/

namespace Sys2Proof.Machine

/-- The flag record of seven independent one-bit flags (R15). There is no eighth flag. -/
structure Flags where
  /-- `P.C`, carry. -/
  c : Bool
  /-- `P.Z`, zero. -/
  z : Bool
  /-- `P.I`, interruptDisable: storage only (R15, R144). -/
  i : Bool
  /-- `P.D`, decimal: storage only (R15). -/
  d : Bool
  /-- `P.B`, break: storage only (R15). -/
  b : Bool
  /-- `P.V`, overflow: storage only (R15). -/
  v : Bool
  /-- `P.N`, negative. -/
  n : Bool
  deriving DecidableEq, Repr

/-- Everything the Processor owns (R10). It is also the snapshot tuple of R25. -/
structure Processor where
  /-- `A`, the accumulator (R11). -/
  a : Byte
  /-- `X`, an index register (R12). -/
  x : Byte
  /-- `Y`, an index register (R12). -/
  y : Byte
  /-- `SP`, the stack offset into page 0x01; it names the next free byte (R14). -/
  sp : Byte
  /-- `PC` (R13). -/
  pc : Addr
  /-- The seven flags (R15). -/
  flags : Flags
  /-- The remaining-cycle counter, a signed integer of unbounded width (R18). -/
  remaining : Int
  /-- The used-cycle counter, a natural number of unbounded width (R19). -/
  used : Nat
  /-- The most recently fetched opcode byte (R17). -/
  lastOpcode : Byte
  deriving DecidableEq, Repr

/-- The memory (R20, R30): the bytes that differ from `Config.initByte`, addresses strictly rising (`Memory.wf`). -/
abbrev Memory := List Host.Cell

/-- A bus event (R6, R41): one for each tick. -/
inductive BusEvent where
  /-- `R(a)`, a byte read of `a`, with the byte read. -/
  | read (a : Addr) (v : Byte)
  /-- `W(a,v)`, a byte write. -/
  | write (a : Addr) (v : Byte)
  /-- `T`, an internal tick, no memory access. -/
  | internal
  deriving DecidableEq, Repr

/-- One tick: its bus event and the snapshot that an observer invoked at the end of the tick reads (R34, R154). -/
structure TickRecord where
  event : BusEvent
  view  : Processor
  deriving DecidableEq, Repr

/-- The state of the block (R10): processor and memory. `trace` is the MODEL'S OWN field (DESIGN CHOICE, log entry 4):
the ticks of the instruction step in progress or last finished, oldest first (R6, R75). No rule reads it. -/
structure State where
  cpu   : Processor
  mem   : Memory
  trace : List TickRecord
  deriving DecidableEq, Repr

/-- Why a step stops with a fault. -/
inductive Fault where
  /-- `UnsupportedOpcode(op, addr)` (R140, R141), the one exception of the core: the opcode fetch at `addr` returned
  `op`, one of the 214 bytes of R58. Raised by `step` through `raiseUnsupportedOpcode`, by no instruction. `after` is
  the state the failure leaves (R142), from which the host may call `execute` again (R146). Safe: the spec's treatment
  is "fault" (93 U1; log entry 5). -/
  | unsupportedOpcode (op : Byte) (addr : Addr) (after : State)
  deriving DecidableEq, Repr

/-- Why a step is refused. -/
inductive Refusal where
  /-- The instruction has no meaning in this model. Raised by no arm: all 42 instructions have their meaning. Safe. -/
  | notModelled (mnemonic : String)
  deriving DecidableEq, Repr

/-- The processor after `reset(pc0)` (R24, R160; the values are the spec's decisions D8 and D18, log entry 3). -/
def Processor.afterReset (pc0 : Addr) : Processor where
  a := 0x00#8
  x := 0x00#8
  y := 0x00#8
  sp := 0xFF#8
  pc := pc0
  flags := { c := false, z := false, i := false, d := false, b := false, v := false, n := false }
  remaining := 0
  used := 0
  lastOpcode := 0x00#8

/-- The machine after reset, before the first bulk load: `RESET_PC` and `INIT_MEM` are `Config.resetPc` (log entry 1)
and all `Config.initByte` (log entry 2); no tick has happened (log entry 4). -/
def State.reset : State where
  cpu := Processor.afterReset Config.resetPc
  mem := []
  trace := []

end Sys2Proof.Machine
end

