-- ==== Sys2Proof/Machine/Ops.lean ====
section
/-! DEFINITION. Memory, registers, the tick, the bus primitives, the stack engine and the decode failure
(20_memory.md R30 to R41; 40_sequencer_and_addressing.md R72, R90 to R95; 60_exceptions.md R140 to R146). -/

namespace Sys2Proof.Machine

/-! ### Memory (R30 to R32) -/

/-- The byte listed for address `a`, or what an unlisted address reads as. -/
def Memory.lookup (m : Memory) (a : Nat) : Byte :=
  match m with
  | [] => Config.initByte
  | (k, v) :: rest => if k = a then v else Memory.lookup rest a

/-- Put the byte of an unlisted address before the first larger address. -/
def Memory.insertCell (m : Memory) (a : Nat) (v : Byte) : Memory :=
  match m with
  | [] => [(a, v)]
  | (k, w) :: rest => if a < k then (a, v) :: (k, w) :: rest else (k, w) :: Memory.insertCell rest a v

/-- `MemRead(a, 1)` (R31): a pure lookup. -/
def Memory.read (m : Memory) (a : Addr) : Byte := m.lookup a.toNat

/-- `MemWrite(a, 1, v)` (R32): changes that one byte and nothing else. -/
def Memory.write (m : Memory) (a : Addr) (v : Byte) : Memory :=
  let rest := m.filter (fun c => c.1 ≠ a.toNat)
  if v = Config.initByte then rest else Memory.insertCell rest a.toNat v

/-- Addresses from `lo` on, strictly rising, below 65536, none listed with the byte an unlisted address reads as. -/
def Memory.wfFrom (m : Memory) (lo : Nat) : Bool :=
  match m with
  | [] => true
  | (k, v) :: rest =>
    decide (lo ≤ k) && decide (k < 65536) && decide (v ≠ Config.initByte) && Memory.wfFrom rest (k + 1)

/-- The canonical form of a memory: equal memories are equal lists. -/
def Memory.wf (m : Memory) : Bool := m.wfFrom 0

/-! ### Registers -/

/-- `reg[t]` (R8). -/
def Processor.reg (p : Processor) (t : Tag) : Byte :=
  match t with
  | .a => p.a
  | .x => p.x
  | .y => p.y

/-- `reg[t] <- v` (R8). -/
def State.setReg (s : State) (t : Tag) (v : Byte) : State :=
  match t with
  | .a => { s with cpu := { s.cpu with a := v } }
  | .x => { s with cpu := { s.cpu with x := v } }
  | .y => { s with cpu := { s.cpu with y := v } }

/-- `SP <- v` (R14). -/
def State.setSp (s : State) (v : Byte) : State := { s with cpu := { s.cpu with sp := v } }

/-- `PC <- target` (R8, R13). -/
def State.setPc (s : State) (target : Addr) : State := { s with cpu := { s.cpu with pc := target } }

/-- The flag record is written whole. -/
def State.setFlags (s : State) (f : Flags) : State := { s with cpu := { s.cpu with flags := f } }

/-- `lastOpcode <- op` (R17). -/
def State.setLastOpcode (s : State) (op : Byte) : State := { s with cpu := { s.cpu with lastOpcode := op } }

/-! ### The tick and the bus primitives (R34 to R41) -/

/-- The counters after one tick (R34). -/
def Processor.tick (p : Processor) : Processor :=
  { p with remaining := p.remaining - 1, used := p.used + 1 }

/-- `tick()` (R34), recorded with its bus event; the observer's view is taken at its end, after both counters are
updated. -/
def State.tick (s : State) (e : BusEvent) : State :=
  { s with cpu := s.cpu.tick, trace := s.trace ++ [⟨e, s.cpu.tick⟩] }

/-- An internal tick `T` (R41). -/
def State.internalTick (s : State) : State := s.tick .internal

/-- `readByte(a)` (R35): the read, then the tick. -/
def readByte (a : Addr) (s : State) : Byte × State :=
  let v := s.mem.read a
  (v, s.tick (.read a v))

/-- `writeByte(a, v)` (R36): the write, then the tick. -/
def writeByte (a : Addr) (v : Byte) (s : State) : State :=
  ({ s with mem := s.mem.write a v }).tick (.write a v)

/-- `readWord(a)` (R37): low byte first; the second address is `a +16 1`, never wrapped inside a page (D12). -/
def readWord (a : Addr) (s : State) : Addr × State :=
  let lo := readByte a s
  let hi := readByte (a + 1) lo.2
  (joinBytes hi.1 lo.1, hi.2)

/-- `fetchByte()` (R38): `PC` changes after the tick. -/
def fetchByte (s : State) : Byte × State :=
  let r := readByte s.cpu.pc s
  (r.1, r.2.setPc (r.2.cpu.pc + 1))

/-- `fetchWord()` (R39): `PC` changes once, after the second tick. -/
def fetchWord (s : State) : Addr × State :=
  let r := readWord s.cpu.pc s
  (r.1, r.2.setPc (r.2.cpu.pc + 2))

/-- `fetchByte()` for an operand byte the decoder has already read at `PC`: the same tick, event and `PC`
(DEDUCED: reads have no side effect, R31, R44; log entry 7). -/
def takeByte (v : Byte) (s : State) : State :=
  let t := s.tick (.read s.cpu.pc v)
  t.setPc (t.cpu.pc + 1)

/-- `fetchWord()` for an operand word the decoder has already read at `PC` (log entry 7). -/
def takeWord (w : Addr) (s : State) : State :=
  let t := (s.tick (.read s.cpu.pc (lowByte w))).tick (.read (s.cpu.pc + 1) (highByte w))
  t.setPc (t.cpu.pc + 2)

/-! ### The stack engine (R90 to R95) -/

/-- `stackAddr(o) = {0x01, o}` (R90). -/
def stackAddr (o : Byte) : Addr := joinBytes 0x01#8 o

/-- `push8(v)` (R91). -/
def push8 (v : Byte) (s : State) : State :=
  let t := writeByte (stackAddr s.cpu.sp) v s
  t.setSp (t.cpu.sp - 1)

/-- `push16(w)` (R92): stores `w -16 1`, high byte first. -/
def push16 (w : Addr) (s : State) : State :=
  let w1 := w - 1
  push8 (lowByte w1) (push8 (highByte w1) s)

/-- `pull8()` (R93). -/
def pull8 (s : State) : Byte × State :=
  let r := readByte (stackAddr (s.cpu.sp + 1)) s
  (r.1, r.2.setSp (r.2.cpu.sp + 1))

/-- `pull16()` (R94): each byte's offset wraps by itself (D11); the +1 and the extra tick happen here, once (D13). -/
def pull16 (s : State) : Addr × State :=
  let lo := readByte (stackAddr (s.cpu.sp + 1)) s
  let hi := readByte (stackAddr (lo.2.cpu.sp + 2)) lo.2
  let w := joinBytes hi.1 lo.1 + 1
  (w, (hi.2.setSp (hi.2.cpu.sp + 2)).internalTick)

/-! ### The opcode fetch and the decode failure (R72, R140 to R146) -/

/-- The first lines of the instruction step (R72): a new trace begins (log entry 4), `op <- fetchByte()`, then
`lastOpcode <- op` (D18). -/
def fetchOpcode (s : State) : State :=
  let r := fetchByte { s with trace := [] }
  r.2.setLastOpcode r.1

/-- `raise UnsupportedOpcode(op, addr)` (R140 to R142, R145), applied to the state BEFORE the step: the opcode fetch
stands and nothing else happens; the report carries the byte and the address it was fetched from; nothing is saved, no
vector is read, no mode changes. There is no return from it: the host may call `execute` again on the state left
(R146). -/
def raiseUnsupportedOpcode (op : Byte) (s : State) : Host.Outcome State Fault Refusal :=
  .fault (.unsupportedOpcode op s.cpu.pc (fetchOpcode s))

end Sys2Proof.Machine
end

