-- ==== Sys2Proof/Machine/Operands.lean ====
section
/-! DEFINITION. The addressing-mode resolver (40_sequencer_and_addressing.md R76 to R88), for an operand the decoder
has read: each function fetches the operand (`takeByte`, `takeWord`), spends the mode's ticks and gives the effective
address. It writes no register but `PC`, no flag and no memory (R76). -/

namespace Sys2Proof.Machine

/-- `cross(base, a)` (R88): the high bytes differ. -/
def cross (base a : Addr) : Bool := highByte base != highByte a

/-- The page-crossing penalty: one internal tick when the page is crossed, for loads and stores alike (R83, R84, R87;
D14). -/
def crossTick (base a : Addr) (s : State) : State := if cross base a then s.internalTick else s

/-- zeroPage (R79). -/
def resolveZeroPage (b : Byte) (s : State) : Addr × State := (zext16 b, takeByte b s)

/-- zeroPageX (R80): the index add wraps modulo 256; its tick is unconditional. -/
def resolveZeroPageX (b : Byte) (s : State) : Addr × State :=
  let s1 := takeByte b s
  (zext16 (b + s1.cpu.x), s1.internalTick)

/-- zeroPageY (R81). -/
def resolveZeroPageY (b : Byte) (s : State) : Addr × State :=
  let s1 := takeByte b s
  (zext16 (b + s1.cpu.y), s1.internalTick)

/-- absolute (R82). -/
def resolveAbsolute (w : Addr) (s : State) : Addr × State := (w, takeWord w s)

/-- absoluteX (R83). -/
def resolveAbsoluteX (w : Addr) (s : State) : Addr × State :=
  let s1 := takeWord w s
  let a := w + zext16 s1.cpu.x
  (a, crossTick w a s1)

/-- absoluteY (R84). -/
def resolveAbsoluteY (w : Addr) (s : State) : Addr × State :=
  let s1 := takeWord w s
  let a := w + zext16 s1.cpu.y
  (a, crossTick w a s1)

/-- indirect (R85): no page wrap. -/
def resolveIndirect (w : Addr) (s : State) : Addr × State := readWord w (takeWord w s)

/-- indirectX (R86): the pointer's high byte is read from `p + 1` as a 16-bit address (D12). -/
def resolveIndirectX (b : Byte) (s : State) : Addr × State :=
  let s1 := takeByte b s
  let p := b + s1.cpu.x
  readWord (zext16 p) s1.internalTick

/-- indirectY (R87). -/
def resolveIndirectY (b : Byte) (s : State) : Addr × State :=
  let r := readWord (zext16 b) (takeByte b s)
  let a := r.1 + zext16 r.2.cpu.y
  (a, crossTick r.1 a r.2)

end Sys2Proof.Machine
end

