-- ==== Sys2Proof/Machine/JumpsCalls.lean ====
section
/-! DEFINITION. The jumps and calls family: JMP, JSR, RTS (42_jumps_calls.md R110 to R113). A meaning starts from the
state after the opcode fetch. -/

namespace Sys2Proof.Machine

/-- JMP's handler, `PC <- resolved address` (R111); no cycle of its own. -/
def jumpTo (r : Addr × State) : State := r.2.setPc r.1

/-- 0x4C JMP absolute (R111, R82). -/
def execJmpAbsolute (w : Addr) (s : State) : Host.Outcome State Fault Refusal :=
  .next (jumpTo (resolveAbsolute w s))

/-- 0x6C JMP indirect (R111, R85). -/
def execJmpIndirect (w : Addr) (s : State) : Host.Outcome State Fault Refusal :=
  .next (jumpTo (resolveIndirect w s))

/-- JSR's handler (R112): `push16(PC)`, then `PC <- target`, then one more tick, which already sees the target. -/
def callTo (r : Addr × State) : State := ((push16 r.2.cpu.pc r.2).setPc r.1).internalTick

/-- 0x20 JSR absolute (R112, R82). -/
def execJsrAbsolute (w : Addr) (s : State) : Host.Outcome State Fault Refusal :=
  .next (callTo (resolveAbsolute w s))

/-- 0x60 RTS (R113): `PC <- pull16()`; the increment and the extra tick are `pull16`'s (D13). -/
def execRts (s : State) : Host.Outcome State Fault Refusal :=
  let r := pull16 s
  .next (r.2.setPc r.1)

end Sys2Proof.Machine
end

