-- ==== Sys2Proof/Machine/Flags.lean ====
section
/-! DEFINITION. The flag derivation (40_sequencer_and_addressing.md R89) and the flag byte image (10_state.md R16).
No other flag computation exists in the core. -/

namespace Sys2Proof.Machine

/-- `P.Z <- (r == 0x00)`, `P.N <- (r[7] == 1)`; no other flag (R89). -/
def Flags.withZN (f : Flags) (r : Byte) : Flags := { f with z := r == 0x00#8, n := r.getLsbD 7 }

/-- `updateZN(t)` (R89): reads the register after the instruction has written it. -/
def updateZN (t : Tag) (s : State) : State := s.setFlags (s.cpu.flags.withZN (s.cpu.reg t))

/-- One flag as a bit. -/
def flagBit (f : Bool) : BitVec 1 := BitVec.ofBool f

/-- `packP() = {0, P.N, P.V, P.B, P.D, P.I, P.Z, P.C}` (R16); bit 7 is 0 (D15, log entry 12). -/
def packP (f : Flags) : Byte :=
  0#1 ++ flagBit f.n ++ flagBit f.v ++ flagBit f.b ++ flagBit f.d ++ flagBit f.i ++ flagBit f.z ++ flagBit f.c

/-- `unpackP(p)` (R16); bit 7 is ignored (D15, log entry 12). -/
def unpackP (p : Byte) : Flags where
  c := p.getLsbD 0
  z := p.getLsbD 1
  i := p.getLsbD 2
  d := p.getLsbD 3
  b := p.getLsbD 4
  v := p.getLsbD 5
  n := p.getLsbD 6

end Sys2Proof.Machine
end

