-- ==== Sys2Proof/Machine/LoadStore.lean ====
section
/-! DEFINITION. The load/store family: LDA, LDX, LDY, STA, STX, STY (41_load_store.md R100 to R106). A meaning starts
from the state after the opcode fetch (`fetchOpcode`): `PC` is at the first operand byte. -/

namespace Sys2Proof.Machine

/-- The load handler on a value (R100): the immediate operand itself, no further bus access. -/
def loadValue (t : Tag) (v : Byte) (s : State) : State := updateZN t (s.setReg t v)

/-- The load handler on an address (R100): one byte read, the register write, then the flags. -/
def loadFrom (t : Tag) (r : Addr × State) : State :=
  let d := readByte r.1 r.2
  loadValue t d.1 d.2

/-- The store handler (R100): one byte written, no flag. -/
def storeTo (t : Tag) (r : Addr × State) : State := writeByte r.1 (r.2.cpu.reg t) r.2

/-! ### LDA (R101) -/

/-- 0xA9 LDA immediate (R101, R78). -/
def execLdaImmediate (v : Byte) (s : State) : Host.Outcome State Fault Refusal :=
  .next (loadValue .a v (takeByte v s))

/-- 0xA5 LDA zeroPage (R101, R79). -/
def execLdaZeroPage (b : Byte) (s : State) : Host.Outcome State Fault Refusal :=
  .next (loadFrom .a (resolveZeroPage b s))

/-- 0xB5 LDA zeroPageX (R101, R80). -/
def execLdaZeroPageX (b : Byte) (s : State) : Host.Outcome State Fault Refusal :=
  .next (loadFrom .a (resolveZeroPageX b s))

/-- 0xAD LDA absolute (R101, R82). -/
def execLdaAbsolute (w : Addr) (s : State) : Host.Outcome State Fault Refusal :=
  .next (loadFrom .a (resolveAbsolute w s))

/-- 0xBD LDA absoluteX (R101, R83). -/
def execLdaAbsoluteX (w : Addr) (s : State) : Host.Outcome State Fault Refusal :=
  .next (loadFrom .a (resolveAbsoluteX w s))

/-- 0xB9 LDA absoluteY (R101, R84). -/
def execLdaAbsoluteY (w : Addr) (s : State) : Host.Outcome State Fault Refusal :=
  .next (loadFrom .a (resolveAbsoluteY w s))

/-- 0xA1 LDA indirectX (R101, R86). -/
def execLdaIndirectX (b : Byte) (s : State) : Host.Outcome State Fault Refusal :=
  .next (loadFrom .a (resolveIndirectX b s))

/-- 0xB1 LDA indirectY (R101, R87). -/
def execLdaIndirectY (b : Byte) (s : State) : Host.Outcome State Fault Refusal :=
  .next (loadFrom .a (resolveIndirectY b s))

/-! ### LDX (R102) -/

/-- 0xA2 LDX immediate (R102, R78). -/
def execLdxImmediate (v : Byte) (s : State) : Host.Outcome State Fault Refusal :=
  .next (loadValue .x v (takeByte v s))

/-- 0xA6 LDX zeroPage (R102, R79). -/
def execLdxZeroPage (b : Byte) (s : State) : Host.Outcome State Fault Refusal :=
  .next (loadFrom .x (resolveZeroPage b s))

/-- 0xB6 LDX zeroPageY (R102, R81). -/
def execLdxZeroPageY (b : Byte) (s : State) : Host.Outcome State Fault Refusal :=
  .next (loadFrom .x (resolveZeroPageY b s))

/-- 0xAE LDX absolute (R102, R82). -/
def execLdxAbsolute (w : Addr) (s : State) : Host.Outcome State Fault Refusal :=
  .next (loadFrom .x (resolveAbsolute w s))

/-- 0xBE LDX absoluteY (R102, R84). -/
def execLdxAbsoluteY (w : Addr) (s : State) : Host.Outcome State Fault Refusal :=
  .next (loadFrom .x (resolveAbsoluteY w s))

/-! ### LDY (R103) -/

/-- 0xA0 LDY immediate (R103, R78). -/
def execLdyImmediate (v : Byte) (s : State) : Host.Outcome State Fault Refusal :=
  .next (loadValue .y v (takeByte v s))

/-- 0xA4 LDY zeroPage (R103, R79). -/
def execLdyZeroPage (b : Byte) (s : State) : Host.Outcome State Fault Refusal :=
  .next (loadFrom .y (resolveZeroPage b s))

/-- 0xB4 LDY zeroPageX (R103, R80). -/
def execLdyZeroPageX (b : Byte) (s : State) : Host.Outcome State Fault Refusal :=
  .next (loadFrom .y (resolveZeroPageX b s))

/-- 0xAC LDY absolute (R103, R82). -/
def execLdyAbsolute (w : Addr) (s : State) : Host.Outcome State Fault Refusal :=
  .next (loadFrom .y (resolveAbsolute w s))

/-- 0xBC LDY absoluteX (R103, R83). -/
def execLdyAbsoluteX (w : Addr) (s : State) : Host.Outcome State Fault Refusal :=
  .next (loadFrom .y (resolveAbsoluteX w s))

/-! ### STA (R104) -/

/-- 0x85 STA zeroPage (R104, R79). -/
def execStaZeroPage (b : Byte) (s : State) : Host.Outcome State Fault Refusal :=
  .next (storeTo .a (resolveZeroPage b s))

/-- 0x95 STA zeroPageX (R104, R80). -/
def execStaZeroPageX (b : Byte) (s : State) : Host.Outcome State Fault Refusal :=
  .next (storeTo .a (resolveZeroPageX b s))

/-- 0x8D STA absolute (R104, R82). -/
def execStaAbsolute (w : Addr) (s : State) : Host.Outcome State Fault Refusal :=
  .next (storeTo .a (resolveAbsolute w s))

/-- 0x9D STA absoluteX (R104, R83). -/
def execStaAbsoluteX (w : Addr) (s : State) : Host.Outcome State Fault Refusal :=
  .next (storeTo .a (resolveAbsoluteX w s))

/-- 0x99 STA absoluteY (R104, R84). -/
def execStaAbsoluteY (w : Addr) (s : State) : Host.Outcome State Fault Refusal :=
  .next (storeTo .a (resolveAbsoluteY w s))

/-- 0x81 STA indirectX (R104, R86). -/
def execStaIndirectX (b : Byte) (s : State) : Host.Outcome State Fault Refusal :=
  .next (storeTo .a (resolveIndirectX b s))

/-- 0x91 STA indirectY (R104, R87). -/
def execStaIndirectY (b : Byte) (s : State) : Host.Outcome State Fault Refusal :=
  .next (storeTo .a (resolveIndirectY b s))

/-! ### STX (R105) -/

/-- 0x86 STX zeroPage (R105, R79). -/
def execStxZeroPage (b : Byte) (s : State) : Host.Outcome State Fault Refusal :=
  .next (storeTo .x (resolveZeroPage b s))

/-- 0x96 STX zeroPageY (R105, R81). -/
def execStxZeroPageY (b : Byte) (s : State) : Host.Outcome State Fault Refusal :=
  .next (storeTo .x (resolveZeroPageY b s))

/-- 0x8E STX absolute (R105, R82). -/
def execStxAbsolute (w : Addr) (s : State) : Host.Outcome State Fault Refusal :=
  .next (storeTo .x (resolveAbsolute w s))

/-! ### STY (R106) -/

/-- 0x84 STY zeroPage (R106, R79). -/
def execStyZeroPage (b : Byte) (s : State) : Host.Outcome State Fault Refusal :=
  .next (storeTo .y (resolveZeroPage b s))

/-- 0x94 STY zeroPageX (R106, R80). -/
def execStyZeroPageX (b : Byte) (s : State) : Host.Outcome State Fault Refusal :=
  .next (storeTo .y (resolveZeroPageX b s))

/-- 0x8C STY absolute (R106, R82). -/
def execStyAbsolute (w : Addr) (s : State) : Host.Outcome State Fault Refusal :=
  .next (storeTo .y (resolveAbsolute w s))

end Sys2Proof.Machine
end

