-- ==== Sys2Proof/Machine/Stack.lean ====
section
/-! DEFINITION. The stack family: PHA, PHP, PLA, PLP, TSX, TXS (43_stack.md R120 to R126), all implied mode (R77: no
operand, no tick). A meaning starts from the state after the opcode fetch. -/

namespace Sys2Proof.Machine

/-- 0x48 PHA (R121). -/
def execPha (s : State) : Host.Outcome State Fault Refusal := .next (push8 s.cpu.a s)

/-- 0x08 PHP (R122): the flag byte image; no flag changes. -/
def execPhp (s : State) : Host.Outcome State Fault Refusal := .next (push8 (packP s.cpu.flags) s)

/-- 0x68 PLA (R123). -/
def execPla (s : State) : Host.Outcome State Fault Refusal :=
  let r := pull8 s
  .next (updateZN .a (r.2.setReg .a r.1))

/-- 0x28 PLP (R124): all seven flags from the byte, not through `updateZN`. -/
def execPlp (s : State) : Host.Outcome State Fault Refusal :=
  let r := pull8 s
  .next (r.2.setFlags (unpackP r.1))

/-- 0xBA TSX (R125). -/
def execTsx (s : State) : Host.Outcome State Fault Refusal := .next (updateZN .x (s.setReg .x s.cpu.sp))

/-- 0x9A TXS (R126): no flag update. -/
def execTxs (s : State) : Host.Outcome State Fault Refusal := .next (s.setSp s.cpu.x)

end Sys2Proof.Machine
end

