-- ==== Sys2Proof/Machine/System.lean ====
section
/-! DEFINITION. The system family: NOP (44_system.md R130, R131). -/

namespace Sys2Proof.Machine

/-- 0xEA NOP (R130): nothing beyond the opcode fetch. -/
def execNop (s : State) : Host.Outcome State Fault Refusal := .next s

end Sys2Proof.Machine
end

