-- ==== Sys2Proof/Machine/Dispatch.lean ====
section
/-! DEFINITION. One arm per instruction: the handler of each opcode-table row (40_sequencer_and_addressing.md R73). -/

namespace Sys2Proof.Machine

def exec (i : Instr) (s : State) : Host.Outcome State Fault Refusal :=
  match i with
  | .ldaImmediate v => Sys2Proof.Machine.execLdaImmediate v s
  | .ldaZeroPage b => Sys2Proof.Machine.execLdaZeroPage b s
  | .ldaZeroPageX b => Sys2Proof.Machine.execLdaZeroPageX b s
  | .ldaAbsolute w => Sys2Proof.Machine.execLdaAbsolute w s
  | .ldaAbsoluteX w => Sys2Proof.Machine.execLdaAbsoluteX w s
  | .ldaAbsoluteY w => Sys2Proof.Machine.execLdaAbsoluteY w s
  | .ldaIndirectX b => Sys2Proof.Machine.execLdaIndirectX b s
  | .ldaIndirectY b => Sys2Proof.Machine.execLdaIndirectY b s
  | .ldxImmediate v => Sys2Proof.Machine.execLdxImmediate v s
  | .ldxZeroPage b => Sys2Proof.Machine.execLdxZeroPage b s
  | .ldxZeroPageY b => Sys2Proof.Machine.execLdxZeroPageY b s
  | .ldxAbsolute w => Sys2Proof.Machine.execLdxAbsolute w s
  | .ldxAbsoluteY w => Sys2Proof.Machine.execLdxAbsoluteY w s
  | .ldyImmediate v => Sys2Proof.Machine.execLdyImmediate v s
  | .ldyZeroPage b => Sys2Proof.Machine.execLdyZeroPage b s
  | .ldyZeroPageX b => Sys2Proof.Machine.execLdyZeroPageX b s
  | .ldyAbsolute w => Sys2Proof.Machine.execLdyAbsolute w s
  | .ldyAbsoluteX w => Sys2Proof.Machine.execLdyAbsoluteX w s
  | .staZeroPage b => Sys2Proof.Machine.execStaZeroPage b s
  | .staZeroPageX b => Sys2Proof.Machine.execStaZeroPageX b s
  | .staAbsolute w => Sys2Proof.Machine.execStaAbsolute w s
  | .staAbsoluteX w => Sys2Proof.Machine.execStaAbsoluteX w s
  | .staAbsoluteY w => Sys2Proof.Machine.execStaAbsoluteY w s
  | .staIndirectX b => Sys2Proof.Machine.execStaIndirectX b s
  | .staIndirectY b => Sys2Proof.Machine.execStaIndirectY b s
  | .stxZeroPage b => Sys2Proof.Machine.execStxZeroPage b s
  | .stxZeroPageY b => Sys2Proof.Machine.execStxZeroPageY b s
  | .stxAbsolute w => Sys2Proof.Machine.execStxAbsolute w s
  | .styZeroPage b => Sys2Proof.Machine.execStyZeroPage b s
  | .styZeroPageX b => Sys2Proof.Machine.execStyZeroPageX b s
  | .styAbsolute w => Sys2Proof.Machine.execStyAbsolute w s
  | .jmpAbsolute w => Sys2Proof.Machine.execJmpAbsolute w s
  | .jmpIndirect w => Sys2Proof.Machine.execJmpIndirect w s
  | .jsrAbsolute w => Sys2Proof.Machine.execJsrAbsolute w s
  | .rts => Sys2Proof.Machine.execRts s
  | .pha => Sys2Proof.Machine.execPha s
  | .php => Sys2Proof.Machine.execPhp s
  | .pla => Sys2Proof.Machine.execPla s
  | .plp => Sys2Proof.Machine.execPlp s
  | .tsx => Sys2Proof.Machine.execTsx s
  | .txs => Sys2Proof.Machine.execTxs s
  | .nop => Sys2Proof.Machine.execNop s

end Sys2Proof.Machine
end

