-- ==== Sys2Proof/Machine/Fetch.lean ====
section
/-! DEFINITION. Where the step reads its next instruction (10_state.md R13, 30_encoding.md R50) and how the host's
harness places one there. -/

namespace Sys2Proof.Machine

/-- The bytes at `PC`, as many as the longest instruction has, addresses wrapping from 0xFFFF to 0x0000 (R50). They
are looked up, not read on the bus: the ticks are those of `fetchOpcode`, `takeByte` and `takeWord` (log entry 7). -/
def fetchWindow (s : State) : List Byte :=
  [s.mem.read s.cpu.pc, s.mem.read (s.cpu.pc + 1), s.mem.read (s.cpu.pc + 2)]

/-- The instruction at `PC`, or why there is none. -/
def nextInstr (s : State) : Decoded := decode (fetchWindow s)

/-- The opcode byte at `PC`. -/
def nextOpcode (s : State) : Byte := s.mem.read s.cpu.pc

/-- Store bytes at consecutive rising addresses, wrapping. -/
def placeBytes (a : Addr) (bs : List Byte) (m : Memory) : Memory :=
  match bs with
  | [] => m
  | b :: rest => placeBytes (a + 1) rest (m.write a b)

/-- The state with the bits `w` of an opcode-table row stored where the next step fetches. -/
def placeTableWord (s : State) (nbits w : Nat) : State :=
  { s with mem := placeBytes s.cpu.pc (bytesOfTableWord nbits w) s.mem }

end Sys2Proof.Machine
end

