-- ==== Sys2Proof/Machine/Step.lean ====
section
/-! DEFINITION. The instruction step (40_sequencer_and_addressing.md R72) and where the harness places an instruction
(70_reset_and_hazards.md R163). -/

namespace Sys2Proof.Machine

/-- `step()` (R72): the instruction whose bytes stand at `PC` runs after its opcode fetch; an unsupported opcode byte
raises the decode failure instead (R140). The loop of `execute` around it is `execute` (log entry 6). -/
def step (s : State) : Host.Outcome State Fault Refusal :=
  match nextInstr s with
  | .instr i _ => exec i (fetchOpcode s)
  | .rejected _ => raiseUnsupportedOpcode (nextOpcode s) s

/-- The state with the bits `w` of an opcode-table row stored at `PC`, where `step` fetches. -/
def State.withFetchWord (s : State) (nbits w : Nat) : State := placeTableWord s nbits w

end Sys2Proof.Machine
end

