-- ==== Sys2Proof/Machine/Sequencer.lean ====
section
/-! DEFINITION. The sequencer as the spec writes it (40_sequencer_and_addressing.md R72, R73, R76 to R87): fetch the
opcode byte, look it up in the opcode table, resolve the mode by fetching the operand bytes on the bus, dispatch to the
operation's handler. `step` runs a decoded instruction instead; an obligation states that the two are one machine. -/

namespace Sys2Proof.Machine

/-- What `resolve` returns (R76, R77): nothing (implied), an operand value (immediate) or an effective address. -/
inductive Resolved where
  | nothing
  | value (v : Byte)
  | addr (a : Addr)
  deriving DecidableEq, Repr

/-- `resolve(mode)` (R77 to R87), operand bytes fetched from memory as it goes. -/
def resolve (m : Mode) (s : State) : Resolved × State :=
  match m with
  | .implied => (.nothing, s)
  | .immediate =>
    let f := fetchByte s
    (.value f.1, f.2)
  | .zeroPage =>
    let f := fetchByte s
    (.addr (zext16 f.1), f.2)
  | .zeroPageX =>
    let f := fetchByte s
    (.addr (zext16 (f.1 + f.2.cpu.x)), f.2.internalTick)
  | .zeroPageY =>
    let f := fetchByte s
    (.addr (zext16 (f.1 + f.2.cpu.y)), f.2.internalTick)
  | .absolute =>
    let f := fetchWord s
    (.addr f.1, f.2)
  | .absoluteX =>
    let f := fetchWord s
    let a := f.1 + zext16 f.2.cpu.x
    (.addr a, crossTick f.1 a f.2)
  | .absoluteY =>
    let f := fetchWord s
    let a := f.1 + zext16 f.2.cpu.y
    (.addr a, crossTick f.1 a f.2)
  | .indirect =>
    let f := fetchWord s
    let r := readWord f.1 f.2
    (.addr r.1, r.2)
  | .indirectX =>
    let f := fetchByte s
    let r := readWord (zext16 (f.1 + f.2.cpu.x)) f.2.internalTick
    (.addr r.1, r.2)
  | .indirectY =>
    let f := fetchByte s
    let r := readWord (zext16 f.1) f.2
    let a := r.1 + zext16 r.2.cpu.y
    (.addr a, crossTick r.1 a r.2)

/-- `load(t, r)` (R100). The opcode table has no load in the implied mode; that case writes nothing (DESIGN CHOICE,
log entry 17, unreachable). -/
def handleLoad (t : Tag) (r : Resolved) (s : State) : State :=
  match r with
  | .value v => updateZN t (s.setReg t v)
  | .addr ea =>
    let d := readByte ea s
    updateZN t (d.2.setReg t d.1)
  | .nothing => s

/-- `store(t, r)` (R100). The table has only address forms (log entry 17). -/
def handleStore (t : Tag) (r : Resolved) (s : State) : State :=
  match r with
  | .addr ea => writeByte ea (s.cpu.reg t) s
  | .value _ | .nothing => s

/-- JMP (R111). The table has only address forms (log entry 17). -/
def handleJmp (r : Resolved) (s : State) : State :=
  match r with
  | .addr t => s.setPc t
  | .value _ | .nothing => s

/-- JSR (R112). The table has only an address form (log entry 17). -/
def handleJsr (r : Resolved) (s : State) : State :=
  match r with
  | .addr t => ((push16 s.cpu.pc s).setPc t).internalTick
  | .value _ | .nothing => s

/-- `handle(operation, mode, tag, r)` (R72, R73). Pairs of an operation with a tag other than R73's do nothing (log
entry 17, unreachable). -/
def handle (op : Operation) (tag : Option Tag) (r : Resolved) (s : State) : State :=
  match op, tag with
  | .lda, some t => handleLoad t r s
  | .ldx, some t => handleLoad t r s
  | .ldy, some t => handleLoad t r s
  | .sta, some t => handleStore t r s
  | .stx, some t => handleStore t r s
  | .sty, some t => handleStore t r s
  | .jmp, none => handleJmp r s
  | .jsr, none => handleJsr r s
  | .rts, none =>
    let p := pull16 s
    p.2.setPc p.1
  | .pha, some t => push8 (s.cpu.reg t) s
  | .php, none => push8 (packP s.cpu.flags) s
  | .pla, some t =>
    let p := pull8 s
    updateZN t (p.2.setReg t p.1)
  | .plp, none =>
    let p := pull8 s
    p.2.setFlags (unpackP p.1)
  | .tsx, some t => updateZN t (s.setReg t s.cpu.sp)
  | .txs, some t => s.setSp (s.cpu.reg t)
  | .nop, none => s
  | _, _ => s

/-- `step()` as R72 prints it: the opcode byte is the one `fetchByte` returns. -/
def sequencerStep (s : State) : Host.Outcome State Fault Refusal :=
  let a0 := s.cpu.pc
  let f := fetchByte { s with trace := [] }
  let s1 := f.2.setLastOpcode f.1
  match decodeOpcode f.1 with
  | none => .fault (.unsupportedOpcode f.1 a0 s1)
  | some row =>
    let r := resolve row.mode s1
    .next (handle row.operation row.operation.tag r.1 r.2)

end Sys2Proof.Machine
end

