-- ==== Sys2Proof/Machine/Session.lean ====
section
/-! DEFINITION. The host's interface to the core (60_exceptions.md R152 to R155; 40_sequencer_and_addressing.md R70,
R71; 20_memory.md R33; 70_reset_and_hazards.md R160): `execute`, the bulk load, host writes, reset, the snapshot. -/

namespace Sys2Proof.Machine

/-- The result of `execute` (R155). -/
inductive ExecResult where
  /-- The loop ended because `remaining <= 0`. -/
  | completed
  /-- `DecodeFailure(op, addr)` (R141). -/
  | decodeFailure (op : Byte) (addr : Addr)
  /-- The model refused a step. NO RESULT OF THE SPEC; no step of this model refuses (log entry 13), so it never occurs. -/
  | refusedByModel (r : Refusal)
  deriving DecidableEq, Repr

/-- What an `execute` call gives the host: the result, the state left, and the call's ticks in order (what an observer
saw, R154). -/
structure Execution where
  result : ExecResult
  final  : State
  ticks  : List TickRecord
  deriving DecidableEq, Repr

/-- The loop of `execute` (R70): `remaining > 0` is tested only between instructions (D7). Every step spends a cycle
(R155), so `fuel` equal to the budget is never exhausted before the test fails. -/
def executeLoop (fuel : Nat) (s : State) (ticks : List TickRecord) : Execution :=
  match fuel with
  | 0 => ⟨.completed, s, ticks⟩
  | n + 1 =>
    if 0 < s.cpu.remaining then
      match step s with
      | .next t => executeLoop n t (ticks ++ t.trace)
      | .fault (.unsupportedOpcode op addr t) => ⟨.decodeFailure op addr, t, ticks ++ t.trace⟩
      | .refused r => ⟨.refusedByModel r, s, ticks⟩
    else ⟨.completed, s, ticks⟩

/-- `execute(budget)` (R70): `remaining` is assigned, not added to (D5); on a decode failure it aborts and reports
(D3, D20). -/
def execute (budget : Nat) (s : State) : Execution :=
  executeLoop budget { s with cpu := { s.cpu with remaining := (budget : Int) } } []

/-- `bulkLoad` (R33): every entry is written, 0x00 where its value is absent; addresses are taken modulo 65536 (R30),
entries in list order (log entry 14). -/
def bulkLoadMemory (entries : List (Nat × Option Byte)) (m : Memory) : Memory :=
  match entries with
  | [] => m
  | (a, v) :: rest => bulkLoadMemory rest (m.write (BitVec.ofNat 16 a) (v.getD 0x00#8))

/-- `bulkLoad` on the machine: no cycle, no processor state (R33). -/
def bulkLoad (entries : List (Nat × Option Byte)) (s : State) : State :=
  { s with mem := bulkLoadMemory entries s.mem }

/-- The host writes one byte of memory between `execute` calls (R152). -/
def hostWrite (a : Addr) (v : Byte) (s : State) : State := { s with mem := s.mem.write a v }

/-- The host reads one byte of memory (R25, R152). -/
def hostRead (a : Addr) (s : State) : Byte := s.mem.read a

/-- `reset(pc0)` (R160): the processor's state, not the memory; the model's own trace is emptied (log entry 4). -/
def resetProcessor (pc0 : Addr) (s : State) : State :=
  { s with cpu := Processor.afterReset pc0, trace := [] }

/-- The snapshot (R25, R153): the read-only view of the processor. -/
def snapshot (s : State) : Processor := s.cpu

/-- What the host may do between `execute` calls that changes the state (R152), and `execute` itself. -/
inductive HostCall where
  | bulkLoad (entries : List (Nat × Option Byte))
  | write (a : Addr) (v : Byte)
  | reset (pc0 : Addr)
  | execute (budget : Nat)
  deriving DecidableEq, Repr

/-- The state after one host call. -/
def hostCall (c : HostCall) (s : State) : State :=
  match c with
  | .bulkLoad entries => Sys2Proof.Machine.bulkLoad entries s
  | .write a v => hostWrite a v s
  | .reset pc0 => resetProcessor pc0 s
  | .execute budget => (Sys2Proof.Machine.execute budget s).final

/-- The state after a session: host calls in order. -/
def session (calls : List HostCall) (s : State) : State := calls.foldl (fun t c => hostCall c t) s

end Sys2Proof.Machine
end

