-- ==== Sys2Proof/Safety.lean ====
section
/-! DEFINITION. The terms the claims use: bus events, replaying them on a memory, cycle and length tables, the bytes an
instruction stores, the invariant, a run. -/

namespace Sys2Proof

/-- The register an instruction loads and derives Z and N from: the callers of `updateZN` (R89). -/
def Operation.znTarget : Operation → Option Tag
  | .lda | .pla => some .a
  | .ldx | .tsx => some .x
  | .ldy => some .y
  | .sta | .stx | .sty | .jmp | .jsr | .rts | .pha | .php | .plp | .txs | .nop => none

/-- The operations that write `SP` (R14). -/
def Operation.writesSp : Operation → Bool
  | .jsr | .rts | .pha | .php | .pla | .plp | .txs => true
  | .lda | .ldx | .ldy | .sta | .stx | .sty | .jmp | .tsx | .nop => false

/-- The control transfers (R110). -/
def Operation.transfers : Operation → Bool
  | .jmp | .jsr | .rts => true
  | .lda | .ldx | .ldy | .sta | .stx | .sty | .pha | .php | .pla | .plp | .tsx | .txs | .nop => false

end Sys2Proof

namespace Sys2Proof.Machine

/-- The bus events of the trace (R6, R75). -/
def State.events (s : State) : List BusEvent := s.trace.map TickRecord.event

/-- The bytes of a list stand at consecutive addresses from `a`, wrapping (R50). -/
def BytesAt (m : Memory) (a : Addr) (bs : List Byte) : Prop :=
  match bs with
  | [] => True
  | b :: rest => m.read a = b ∧ BytesAt m (a + 1) rest

/-- Replay bus events on a memory (R47): a read event must carry the byte the memory holds at that moment, a write
event changes that byte, an internal tick does nothing; `none` when a read event does not agree. -/
def replay (m : Memory) (es : List BusEvent) : Option Memory :=
  match es with
  | [] => some m
  | .read a v :: rest => if m.read a = v then replay m rest else none
  | .write a v :: rest => replay (m.write a v) rest
  | .internal :: rest => replay m rest

/-- The little-endian word at `a` (R37, R42). -/
def wordAt (m : Memory) (a : Addr) : Addr := joinBytes (m.read (a + 1)) (m.read a)

/-- Whether the indexed address of an instruction crosses a page (R88, the `p` of R96); `s` is the state after the
opcode fetch. -/
def pageCrossed (i : Instr) (s : State) : Bool :=
  match i with
  | .ldaAbsoluteX w | .ldyAbsoluteX w | .staAbsoluteX w => cross w (w + zext16 s.cpu.x)
  | .ldaAbsoluteY w | .ldxAbsoluteY w | .staAbsoluteY w => cross w (w + zext16 s.cpu.y)
  | .ldaIndirectY b | .staIndirectY b =>
    cross (wordAt s.mem (zext16 b)) (wordAt s.mem (zext16 b) + zext16 s.cpu.y)
  | .ldaImmediate _ | .ldaZeroPage _ | .ldaZeroPageX _ | .ldaAbsolute _ | .ldaIndirectX _ | .ldxImmediate _
  | .ldxZeroPage _ | .ldxZeroPageY _ | .ldxAbsolute _ | .ldyImmediate _ | .ldyZeroPage _ | .ldyZeroPageX _
  | .ldyAbsolute _ | .staZeroPage _ | .staZeroPageX _ | .staAbsolute _ | .staIndirectX _ | .stxZeroPage _
  | .stxZeroPageY _ | .stxAbsolute _ | .styZeroPage _ | .styZeroPageX _ | .styAbsolute _ | .jmpAbsolute _
  | .jmpIndirect _ | .jsrAbsolute _ | .rts | .pha | .php | .pla | .plp | .tsx | .txs | .nop => false

/-- The cycle totals of R96, opcode fetch included. -/
def cycleTotal (i : Instr) (s : State) : Nat :=
  let p := (pageCrossed i s).toNat
  match i.operation with
  | .lda | .ldx | .ldy | .sta | .stx | .sty =>
    match i.mode with
    | .immediate => 2
    | .zeroPage => 3
    | .zeroPageX | .zeroPageY | .absolute => 4
    | .absoluteX | .absoluteY => 4 + p
    | .indirectX => 6
    | .indirectY => 5 + p
    | .implied | .indirect => 0
  | .jmp => if i.mode = .indirect then 5 else 3
  | .jsr => 6
  | .rts => 4
  | .pha | .php | .pla | .plp => 2
  | .tsx | .txs | .nop => 1

/-- The addresses an instruction stores to, from the state its meaning starts in, computed with the functions the
meanings use: the store forms' effective address, the stack slots of the pushes. -/
def storedAddrs (i : Instr) (s : State) : List Addr :=
  match i with
  | .staZeroPage b | .stxZeroPage b | .styZeroPage b => [(resolveZeroPage b s).1]
  | .staZeroPageX b | .styZeroPageX b => [(resolveZeroPageX b s).1]
  | .stxZeroPageY b => [(resolveZeroPageY b s).1]
  | .staAbsolute w | .stxAbsolute w | .styAbsolute w => [(resolveAbsolute w s).1]
  | .staAbsoluteX w => [(resolveAbsoluteX w s).1]
  | .staAbsoluteY w => [(resolveAbsoluteY w s).1]
  | .staIndirectX b => [(resolveIndirectX b s).1]
  | .staIndirectY b => [(resolveIndirectY b s).1]
  | .jsrAbsolute _ => [stackAddr s.cpu.sp, stackAddr (s.cpu.sp - 1)]
  | .pha | .php => [stackAddr s.cpu.sp]
  | .ldaImmediate _ | .ldaZeroPage _ | .ldaZeroPageX _ | .ldaAbsolute _ | .ldaAbsoluteX _ | .ldaAbsoluteY _
  | .ldaIndirectX _ | .ldaIndirectY _ | .ldxImmediate _ | .ldxZeroPage _ | .ldxZeroPageY _ | .ldxAbsolute _
  | .ldxAbsoluteY _ | .ldyImmediate _ | .ldyZeroPage _ | .ldyZeroPageX _ | .ldyAbsolute _ | .ldyAbsoluteX _
  | .jmpAbsolute _ | .jmpIndirect _ | .rts | .pla | .plp | .tsx | .txs | .nop => []

/-- The byte an operation that stores one byte writes, from the processor the instruction starts with (R100, R121, R122);
`none` for an operation that stores nothing, and for JSR, which stores two bytes (R112). -/
def storedByte (op : Operation) (p : Processor) : Option Byte :=
  match op with
  | .sta | .pha => some p.a
  | .stx => some p.x
  | .sty => some p.y
  | .php => some (packP p.flags)
  | .lda | .ldx | .ldy | .jmp | .jsr | .rts | .pla | .plp | .tsx | .txs | .nop => none

/-- The processor after `len` more instruction bytes and `n` ticks, nothing else (R34, R74). -/
def Processor.spent (p : Processor) (len : Addr) (n : Nat) : Processor :=
  { p with pc := p.pc + len, remaining := p.remaining - (n : Int), used := p.used + n }

/-- The processor with register `t` loaded with `v` and Z and N derived: Z for 0x00, N for 0x80 to 0xFF (R89, R101). -/
def Processor.loaded (p : Processor) (t : Tag) (v : Byte) : Processor :=
  let f : Flags := { p.flags with z := decide (v.toNat = 0), n := decide (128 ≤ v.toNat) }
  match t with
  | .a => { p with a := v, flags := f }
  | .x => { p with x := v, flags := f }
  | .y => { p with y := v, flags := f }

/-- The two processors agree on all but the counters, `lastOpcode` and the flags. -/
def Processor.sameRegisters (p q : Processor) : Prop :=
  p.a = q.a ∧ p.x = q.x ∧ p.y = q.y ∧ p.sp = q.sp ∧ p.pc = q.pc

/-- The meaning of `i` answers a next state from `s`, with that processor and memory, and adds those bus events. -/
def Answers (i : Instr) (s : State) (cpu : Processor) (mem : Memory) (es : List BusEvent) : Prop :=
  ∃ t, exec i s = .next t ∧ t.cpu = cpu ∧ t.mem = mem ∧ t.events = s.events ++ es

/-- One internal tick if the page is crossed (R88). -/
def crossEvents (base a : Addr) : List BusEvent := if cross base a then [.internal] else []

/-- The bus event of reading `a` in memory `m`. -/
def readEvent (m : Memory) (a : Addr) : BusEvent := .read a (m.read a)

/-- The two bus events of fetching an operand word at `pc` (R39). -/
def operandEvents (pc w : Addr) : List BusEvent := [.read pc (lowByte w), .read (pc + 1) (highByte w)]

/-- `i` loads register `t` from `ea`, after `len` operand bytes and the resolver's events `es` (R100, R75). -/
def LoadsFrom (i : Instr) (t : Tag) (s : State) (len ea : Addr) (es : List BusEvent) : Prop :=
  Answers i s ((s.cpu.spent len (es.length + 1)).loaded t (s.mem.read ea)) s.mem (es ++ [readEvent s.mem ea])

/-- `i` stores register `t` at `ea`, after `len` operand bytes and the resolver's events `es` (R100, R75). -/
def StoresTo (i : Instr) (t : Tag) (s : State) (len ea : Addr) (es : List BusEvent) : Prop :=
  Answers i s (s.cpu.spent len (es.length + 1)) (s.mem.write ea (s.cpu.reg t)) (es ++ [.write ea (s.cpu.reg t)])

/-- The ticks of the trace carry consecutive values of `used`, the last one the present value (R34). -/
def TicksNumbered (s : State) : Prop :=
  s.trace.length ≤ s.cpu.used ∧
  s.trace.map (fun r => r.view.used) =
    (List.range s.trace.length).map (fun k => k + (s.cpu.used + 1 - s.trace.length))

/-- The invariant of the machine: memory in its canonical form, at most six ticks in the trace (the longest
instruction, R96), and no tick unrecorded. -/
def Inv (s : State) : Prop := s.mem.wf = true ∧ s.trace.length ≤ 6 ∧ TicksNumbered s

/-- A run of `n` whole steps from `s` to `t`. -/
def Runs (n : Nat) (s t : State) : Prop :=
  match n with
  | 0 => s = t
  | k + 1 => ∃ u, step s = .next u ∧ Runs k u t

end Sys2Proof.Machine
end

