-- ==== Sys2Proof/Certificates/Slice0/Obligations.lean ====
section
/-! DEFINITION. The statements for the provers. Rules R<n> are those of spec/; a statement that rests on a decision of
the spec (D<n>) or of the model says so and names the log entry. -/

open Sys2Proof Sys2Proof.Machine

/-! ### Encoding and decoding -/

/-- Words written out bit by bit from 30_encoding.md R56, R60 decode to the instruction they stand for; the operand byte
or word follows the opcode, low byte first. Of the opcode bytes, A9, 8D, 4C, 20, 60, 48 and EA are printed by the source;
the rest are the spec's decision D2 (log entry 9). -/
def Obligations.WrittenOutWordsDecode : Prop :=
  decodeTableWord 16 0x55A9 = some (.ldaImmediate 0x55#8) ∧
  decodeTableWord 24 0x1234BD = some (.ldaAbsoluteX 0x1234#16) ∧
  decodeTableWord 16 0x40A1 = some (.ldaIndirectX 0x40#8) ∧
  decodeTableWord 16 0x40B1 = some (.ldaIndirectY 0x40#8) ∧
  decodeTableWord 16 0x80B6 = some (.ldxZeroPageY 0x80#8) ∧
  decodeTableWord 24 0x1234BC = some (.ldyAbsoluteX 0x1234#16) ∧
  decodeTableWord 24 0x02008D = some (.staAbsolute 0x0200#16) ∧
  decodeTableWord 24 0x80004C = some (.jmpAbsolute 0x8000#16) ∧
  decodeTableWord 24 0x12346C = some (.jmpIndirect 0x1234#16) ∧
  decodeTableWord 24 0x800020 = some (.jsrAbsolute 0x8000#16) ∧
  decodeTableWord 8 0x60 = some .rts ∧ decodeTableWord 8 0x48 = some .pha ∧ decodeTableWord 8 0x28 = some .plp ∧
  decodeTableWord 8 0xBA = some .tsx ∧ decodeTableWord 8 0xEA = some .nop ∧ decodeTableWord 8 0x00 = none

/-- Every instruction, with every operand, is well formed, and decoding its encoding gives it back with the bytes after
it untouched. -/
def Obligations.DecodeInvertsEncode : Prop :=
  ∀ (i : Instr) (rest : List Byte), i.wellFormed = true ∧ decode (encode i ++ rest) = .instr i rest

/-- Whatever the decoder accepts is the encoding of the instruction it answers, followed by the bytes it leaves. -/
def Obligations.EncodeInvertsDecode : Prop :=
  ∀ (bs : List Byte) (i : Instr) (rest : List Byte), decode bs = .instr i rest → bs = encode i ++ rest

/-- On any three bytes or more the decoder follows the opcode table (R55, R56): the row of the first byte fixes
operation, mode and tag, and a byte with no row is rejected by name. The table's rows are D1 and D2 (log entry 9). -/
def Obligations.DecodeFollowsOpcodeTable : Prop :=
  ∀ (op b1 b2 : Byte) (rest : List Byte),
    (∀ row, decodeOpcode op = some row →
      ∃ i left, decode (op :: b1 :: b2 :: rest) = .instr i left ∧ i.opcode = op ∧ i.operation = row.operation ∧
        i.mode = row.mode ∧ (encode i).length = row.mode.length) ∧
    (decodeOpcode op = none → decode (op :: b1 :: b2 :: rest) = .rejected (.unsupportedOpcode op))

/-- The opcode table holds 42 rows, no two with one byte, exactly the supported pairs; 214 bytes have no row; the
lengths count 8, 19 and 15; the bytes sum to 0x17D5 (R53, R56, R58; D1, D2, log entry 9). -/
def Obligations.OpcodeTableHasFortyTwoDistinctRows : Prop :=
  opcodeTable.length = 42 ∧ (opcodeTable.map Row.byte).Nodup ∧
  (∀ op m, supportedPair op m = opcodeTable.any (fun r => r.operation == op && r.mode == m)) ∧
  ((List.range 256).filter (fun n => decodeOpcode (BitVec.ofNat 8 n) == none)).length = 214 ∧
  (opcodeTable.map (fun r => r.mode.length)).count 1 = 8 ∧ (opcodeTable.map (fun r => r.mode.length)).count 2 = 19 ∧
  (opcodeTable.map (fun r => r.mode.length)).count 3 = 15 ∧ (opcodeTable.map (fun r => r.byte.toNat)).sum = 0x17D5

/-! ### The step -/

/-- When the bytes at `PC` are those of `i`, the step is the meaning of `i` after the opcode fetch, which reads the
opcode byte, spends one cycle, advances `PC` by one and records the byte in `lastOpcode`. -/
def Obligations.StepRunsDecodedInstruction : Prop :=
  ∀ (i : Instr) (s : State), BytesAt s.mem s.cpu.pc (encode i) →
    step s = exec i (fetchOpcode s) ∧
    (fetchOpcode s).cpu = { s.cpu with pc := s.cpu.pc + 1, remaining := s.cpu.remaining - 1, used := s.cpu.used + 1, lastOpcode := i.opcode } ∧
    (fetchOpcode s).mem = s.mem ∧ (fetchOpcode s).events = [.read s.cpu.pc i.opcode]

/-- The step on decoded instructions is, in every state, the sequencer of R72 that fetches operand bytes on the bus as
the resolver goes, looks the opcode up in the table and dispatches by operation and tag. -/
def Obligations.StepIsTheSequencer : Prop := ∀ s : State, step s = sequencerStep s

/-- An opcode byte with no row: the step reports `UnsupportedOpcode(op, addr)` and leaves exactly the opcode fetch
(R140 to R142; the policy, the state left and the address in the report are D3, D4, D20, log entry 5; the byte in
`lastOpcode` is D18, log entry 16). -/
def Obligations.DecodeFailureIsPrecise : Prop :=
  ∀ s : State, decodeOpcode (s.mem.read s.cpu.pc) = none →
    ∃ t, step s = .fault (.unsupportedOpcode (s.mem.read s.cpu.pc) s.cpu.pc t) ∧
      t.cpu = { s.cpu with pc := s.cpu.pc + 1, remaining := s.cpu.remaining - 1, used := s.cpu.used + 1, lastOpcode := s.mem.read s.cpu.pc } ∧
      t.mem = s.mem ∧ t.events = [.read s.cpu.pc (s.mem.read s.cpu.pc)]

/-- No instruction faults (R143), and a step that gives no next state raised the decode failure of the byte at `PC`, that
one only, reported with the byte and the address `PC` (R140, R141); no step is refused. Abort and report is D3 and the
address in the report D20 (log entry 5); the bytes with no row are D1 and D2 (log entry 9). -/
def Obligations.OnlyTheDecodeFailureStops : Prop :=
  (∀ (i : Instr) (s : State), ∃ t, exec i s = .next t) ∧
  ∀ s : State, (∃ t, step s = .next t) ∨
    (decodeOpcode (s.mem.read s.cpu.pc) = none ∧
      ∃ t, step s = .fault (.unsupportedOpcode (s.mem.read s.cpu.pc) s.cpu.pc t))

/-! ### Memory and bus primitives -/

/-- `MemWrite` changes one byte and consumes no cycle (R32); `readByte` returns the byte and spends one cycle (R35). -/
def Obligations.MemWriteAndReadByteEffects : Prop :=
  ∀ (a : Addr) (v : Byte) (s : State),
    (hostWrite a v s).cpu = s.cpu ∧ (hostWrite a v s).trace = s.trace ∧
    (∀ b, (hostWrite a v s).mem.read b = if b = a then v else s.mem.read b) ∧
    (readByte a s).1 = s.mem.read a ∧ (readByte a s).2.mem = s.mem ∧
    (readByte a s).2.cpu = { s.cpu with remaining := s.cpu.remaining - 1, used := s.cpu.used + 1 } ∧
    (readByte a s).2.events = s.events ++ [.read a (s.mem.read a)]

/-- `writeByte` writes and spends one cycle (R36); `readWord` reads low byte then high byte, the second at the address
plus one modulo 65536 and never wrapped inside a page (R37; D12, log entry 11). -/
def Obligations.WriteByteAndReadWordEffects : Prop :=
  ∀ (a : Addr) (v : Byte) (s : State),
    (∀ b, (writeByte a v s).mem.read b = if b = a then v else s.mem.read b) ∧
    (writeByte a v s).cpu = { s.cpu with remaining := s.cpu.remaining - 1, used := s.cpu.used + 1 } ∧
    (writeByte a v s).events = s.events ++ [.write a v] ∧
    (∀ hiAddr : Addr, hiAddr.toNat = (a.toNat + 1) % 65536 →
      (readWord a s).1.toNat = (s.mem.read hiAddr).toNat * 256 + (s.mem.read a).toNat ∧
      (readWord a s).2.events = s.events ++ [.read a (s.mem.read a), .read hiAddr (s.mem.read hiAddr)]) ∧
    (readWord a s).2.mem = s.mem ∧
    (readWord a s).2.cpu = { s.cpu with remaining := s.cpu.remaining - 2, used := s.cpu.used + 2 }

/-- `fetchByte` and `fetchWord` (R38, R39): the bytes at `PC`, and `PC` changes after the last tick, so that the view at
each tick still holds the old `PC`. The views are those of the end of the tick, both counters moved (R34): D17, log
entry 15; the trace that holds them is the model's own field (DESIGN CHOICE, log entry 4). -/
def Obligations.FetchPrimitivesEffects : Prop :=
  ∀ s : State,
    (fetchByte s).1 = s.mem.read s.cpu.pc ∧ (fetchByte s).2.mem = s.mem ∧
    (fetchByte s).2.cpu = { s.cpu with pc := s.cpu.pc + 1, remaining := s.cpu.remaining - 1, used := s.cpu.used + 1 } ∧
    (fetchByte s).2.trace = s.trace ++
      [⟨.read s.cpu.pc (s.mem.read s.cpu.pc), { s.cpu with remaining := s.cpu.remaining - 1, used := s.cpu.used + 1 }⟩] ∧
    (fetchWord s).1.toNat = (s.mem.read (s.cpu.pc + 1)).toNat * 256 + (s.mem.read s.cpu.pc).toNat ∧
    (fetchWord s).2.mem = s.mem ∧
    (fetchWord s).2.cpu = { s.cpu with pc := s.cpu.pc + 2, remaining := s.cpu.remaining - 2, used := s.cpu.used + 2 } ∧
    (fetchWord s).2.trace = s.trace ++
      [⟨.read s.cpu.pc (s.mem.read s.cpu.pc), { s.cpu with remaining := s.cpu.remaining - 1, used := s.cpu.used + 1 }⟩,
       ⟨.read (s.cpu.pc + 1) (s.mem.read (s.cpu.pc + 1)),
        { s.cpu with remaining := s.cpu.remaining - 2, used := s.cpu.used + 2 }⟩]

/-- Two memories in canonical form that read alike at every address are equal data. (The form is the model's, log entry
2.) -/
def Obligations.CanonicalMemoriesAreEqualByReads : Prop :=
  ∀ m m' : Memory, m.wf = true → m'.wf = true → (∀ a : Addr, m.read a = m'.read a) → m = m'

/-- Every tick moves one cycle from `remaining` to `used` (R34) and is in the trace of its step; a step takes one to six
ticks (R96). -/
def Obligations.StepMovesOneCyclePerTick : Prop :=
  ∀ s t : State, step s = .next t →
    t.cpu.remaining + (t.cpu.used : Int) = s.cpu.remaining + (s.cpu.used : Int) ∧
    t.cpu.used = s.cpu.used + t.trace.length ∧ 1 ≤ t.trace.length ∧ t.trace.length ≤ 6

/-! ### The resolver -/

/-- zeroPage, zeroPageX and absolute (R79, R80, R82): the effective address in plain arithmetic, the ticks, `PC`. -/
def Obligations.ResolverZeroPageAndAbsolute : Prop :=
  ∀ s : State,
    (∃ a t, resolve .zeroPage s = (.addr a, t) ∧ a.toNat = (s.mem.read s.cpu.pc).toNat ∧ t.cpu = s.cpu.spent 1 1 ∧
      t.mem = s.mem ∧ t.events = s.events ++ [readEvent s.mem s.cpu.pc]) ∧
    (∃ a t, resolve .zeroPageX s = (.addr a, t) ∧ a.toNat = ((s.mem.read s.cpu.pc).toNat + s.cpu.x.toNat) % 256 ∧
      t.cpu = s.cpu.spent 1 2 ∧ t.mem = s.mem ∧ t.events = s.events ++ [readEvent s.mem s.cpu.pc, .internal]) ∧
    (∃ a t, resolve .absolute s = (.addr a, t) ∧
      a.toNat = (s.mem.read (s.cpu.pc + 1)).toNat * 256 + (s.mem.read s.cpu.pc).toNat ∧ t.cpu = s.cpu.spent 2 2 ∧
      t.mem = s.mem ∧ t.events = s.events ++ [readEvent s.mem s.cpu.pc, readEvent s.mem (s.cpu.pc + 1)])

/-- zeroPageY, absoluteX and absoluteY (R81, R83, R84, R88): the sum wraps modulo 256 or 65536, and the extra tick is paid
exactly when the low byte and the index sum to 256 or more, for loads and stores alike (D14, log entry 10). -/
def Obligations.ResolverIndexedModes : Prop :=
  ∀ s : State,
    let lo := (s.mem.read s.cpu.pc).toNat
    let base := (s.mem.read (s.cpu.pc + 1)).toNat * 256 + lo
    let fetches := [readEvent s.mem s.cpu.pc, readEvent s.mem (s.cpu.pc + 1)]
    (∃ a t, resolve .zeroPageY s = (.addr a, t) ∧ a.toNat = (lo + s.cpu.y.toNat) % 256 ∧ t.cpu = s.cpu.spent 1 2 ∧
      t.mem = s.mem ∧ t.events = s.events ++ [readEvent s.mem s.cpu.pc, .internal]) ∧
    (∃ a t, resolve .absoluteX s = (.addr a, t) ∧ a.toNat = (base + s.cpu.x.toNat) % 65536 ∧ t.mem = s.mem ∧
      (lo + s.cpu.x.toNat < 256 → t.cpu = s.cpu.spent 2 2 ∧ t.events = s.events ++ fetches) ∧
      (256 ≤ lo + s.cpu.x.toNat → t.cpu = s.cpu.spent 2 3 ∧ t.events = s.events ++ fetches ++ [.internal])) ∧
    (∃ a t, resolve .absoluteY s = (.addr a, t) ∧ a.toNat = (base + s.cpu.y.toNat) % 65536 ∧ t.mem = s.mem ∧
      (lo + s.cpu.y.toNat < 256 → t.cpu = s.cpu.spent 2 2 ∧ t.events = s.events ++ fetches) ∧
      (256 ≤ lo + s.cpu.y.toNat → t.cpu = s.cpu.spent 2 3 ∧ t.events = s.events ++ fetches ++ [.internal]))

/-- indirect, indirectX and indirectY (R85, R86, R87): the pointer's high byte is read at the pointer plus one as a 16-bit
address, so a pointer at 0x00FF continues at 0x0100 (D12, log entry 11). -/
def Obligations.ResolverIndirectModes : Prop :=
  ∀ s : State,
    let b := s.mem.read s.cpu.pc
    let p := wordAt s.mem s.cpu.pc
    let px := zext16 (b + s.cpu.x)
    let py := zext16 b
    let base := wordAt s.mem py
    (∃ t, resolve .indirect s = (.addr (wordAt s.mem p), t) ∧ t.cpu = s.cpu.spent 2 4 ∧ t.mem = s.mem ∧
      t.events = s.events ++ [readEvent s.mem s.cpu.pc, readEvent s.mem (s.cpu.pc + 1), readEvent s.mem p,
        readEvent s.mem (p + 1)]) ∧
    (∃ t, resolve .indirectX s = (.addr (wordAt s.mem px), t) ∧ px.toNat = (b.toNat + s.cpu.x.toNat) % 256 ∧
      t.cpu = s.cpu.spent 1 4 ∧ t.mem = s.mem ∧
      t.events = s.events ++ [readEvent s.mem s.cpu.pc, .internal, readEvent s.mem px, readEvent s.mem (px + 1)]) ∧
    (∃ a t, resolve .indirectY s = (.addr a, t) ∧ a.toNat = (base.toNat + s.cpu.y.toNat) % 65536 ∧ t.mem = s.mem ∧
      t.cpu = s.cpu.spent 1 (3 + (crossEvents base a).length) ∧
      t.events = s.events ++ [readEvent s.mem s.cpu.pc, readEvent s.mem py, readEvent s.mem (py + 1)] ++
        crossEvents base a)

/-! ### Flags -/

/-- The flag derivation and its callers (R89): Z and N of the register just written, in LDA, LDX, LDY, PLA and TSX and
nowhere else; no other flag, no cycle; never both set. -/
def Obligations.ZeroAndNegativeAreDerived : Prop :=
  (∀ (r : Tag) (s : State),
    (updateZN r s).cpu = { s.cpu with flags := { s.cpu.flags with z := decide ((s.cpu.reg r).toNat = 0), n := decide (128 ≤ (s.cpu.reg r).toNat) } } ∧
    (updateZN r s).mem = s.mem ∧ (updateZN r s).trace = s.trace ∧
    ((updateZN r s).cpu.flags.z && (updateZN r s).cpu.flags.n) = false) ∧
  (∀ (i : Instr) (s t : State), exec i s = .next t →
    (∀ r, i.operation.znTarget = some r →
      t.cpu.flags = { s.cpu.flags with z := decide ((t.cpu.reg r).toNat = 0), n := decide (128 ≤ (t.cpu.reg r).toNat) }) ∧
    (i.operation.znTarget = none → i.operation ≠ .plp → t.cpu.flags = s.cpu.flags))

/-- Who writes and who reads the flags (R15): C, I, D, B and V are written by PLP only; Z and N by the callers of the
derivation and PLP; every flag is read by PHP, and by PHP only. (The byte image is R16's, its bit 7 D15, log entry 12.) -/
def Obligations.FlagWritersAndReaders : Prop :=
  (∀ (i : Instr) (s t : State), exec i s = .next t →
    (i.operation ≠ .plp → t.cpu.flags.c = s.cpu.flags.c ∧ t.cpu.flags.i = s.cpu.flags.i ∧
      t.cpu.flags.d = s.cpu.flags.d ∧ t.cpu.flags.b = s.cpu.flags.b ∧ t.cpu.flags.v = s.cpu.flags.v) ∧
    (i.operation ≠ .plp → i.operation.znTarget = none →
      t.cpu.flags.z = s.cpu.flags.z ∧ t.cpu.flags.n = s.cpu.flags.n) ∧
    (∀ r, i.operation.znTarget = some r →
      t.cpu.flags.z = decide ((t.cpu.reg r).toNat = 0) ∧ t.cpu.flags.n = decide (128 ≤ (t.cpu.reg r).toNat))) ∧
  (∀ (s : State) (f : Flags), s.mem.read (stackAddr (s.cpu.sp + 1)) = packP f →
    ∃ t, exec .plp s = .next t ∧ t.cpu.flags = f) ∧
  (∀ s : State, ∃ t, exec .php s = .next t ∧ t.mem.read (stackAddr s.cpu.sp) = packP s.cpu.flags ∧
    t.cpu.flags = s.cpu.flags) ∧
  (∀ (i : Instr) (s t : State) (f : Flags), i.operation ≠ .php → exec i s = .next t →
    ∃ u, exec i (s.setFlags f) = .next u ∧ u.cpu = { t.cpu with flags := u.cpu.flags } ∧ u.mem = t.mem ∧
      u.events = t.events)

/-- The flag byte image (R16): bit 0 carry up to bit 6 negative; bit 7 is pushed as 0 and ignored on a pull (D15, log
entry 12). -/
def Obligations.FlagByteImageLayout : Prop :=
  (∀ f : Flags, (packP f).toNat =
    f.c.toNat + 2 * f.z.toNat + 4 * f.i.toNat + 8 * f.d.toNat + 16 * f.b.toNat + 32 * f.v.toNat + 64 * f.n.toNat) ∧
  (∀ f : Flags, unpackP (packP f) = f) ∧ (∀ p : Byte, packP (unpackP p) = p &&& 0x7F#8)

/-! ### The stack engine -/

/-- The stack address is 0x0100 plus the offset (R90); `push8` writes there and then decrements `SP` (R91); `pull8` reads
at the offset plus one modulo 256 and then increments `SP` (R93); each is one cycle. -/
def Obligations.PushAndPullOneByte : Prop :=
  (∀ o : Byte, (stackAddr o).toNat = 0x100 + o.toNat) ∧
  (∀ (v : Byte) (s : State),
    (push8 v s).cpu = { s.cpu with sp := s.cpu.sp - 1, remaining := s.cpu.remaining - 1, used := s.cpu.used + 1 } ∧
    (∀ b, (push8 v s).mem.read b = if b = stackAddr s.cpu.sp then v else s.mem.read b) ∧
    (push8 v s).events = s.events ++ [.write (stackAddr s.cpu.sp) v]) ∧
  (∀ s : State,
    (pull8 s).1 = s.mem.read (stackAddr (s.cpu.sp + 1)) ∧
    (pull8 s).2.cpu = { s.cpu with sp := s.cpu.sp + 1, remaining := s.cpu.remaining - 1, used := s.cpu.used + 1 } ∧
    (pull8 s).2.mem = s.mem ∧ (pull8 s).2.events = s.events ++ [readEvent s.mem (stackAddr (s.cpu.sp + 1))])

/-- `push16` stores the value less one, high byte first; `pull16` returns the stored word plus one; each offset wraps by
itself (R92, R94; D11, D13, D16, log entries 10 and 11). A pull after a push gives the value back and restores `SP`. -/
def Obligations.PullSixteenInvertsPushSixteen : Prop :=
  ∀ (w : Addr) (s : State),
    (push16 w s).mem.read (stackAddr s.cpu.sp) = highByte (w - 1) ∧
    (push16 w s).mem.read (stackAddr (s.cpu.sp - 1)) = lowByte (w - 1) ∧
    (∀ a, a ≠ stackAddr s.cpu.sp → a ≠ stackAddr (s.cpu.sp - 1) → (push16 w s).mem.read a = s.mem.read a) ∧
    (push16 w s).cpu = { s.cpu with sp := s.cpu.sp - 2, remaining := s.cpu.remaining - 2, used := s.cpu.used + 2 } ∧
    (pull16 s).1.toNat = ((s.mem.read (stackAddr (s.cpu.sp + 2))).toNat * 256 +
      (s.mem.read (stackAddr (s.cpu.sp + 1))).toNat + 1) % 65536 ∧
    (pull16 s).2.cpu = { s.cpu with sp := s.cpu.sp + 2, remaining := s.cpu.remaining - 3, used := s.cpu.used + 3 } ∧
    (pull16 (push16 w s)).1 = w ∧ (pull16 (push16 w s)).2.cpu.sp = s.cpu.sp

/-- The stack is a ring of 256 bytes (R95): after 256 pushes `SP` is back, the next push overwrites the byte pushed first,
a pull from an empty stack returns whatever byte is at the next offset; no byte outside page 0x01 and no flag changes. -/
def Obligations.StackIsARing : Prop :=
  (∀ (vs : List Byte) (s : State),
    (vs.foldl (fun u v => push8 v u) s).cpu.sp = s.cpu.sp - BitVec.ofNat 8 vs.length ∧
    (vs.foldl (fun u v => push8 v u) s).cpu.flags = s.cpu.flags ∧
    (∀ a, highByte a ≠ 0x01#8 → (vs.foldl (fun u v => push8 v u) s).mem.read a = s.mem.read a)) ∧
  (∀ (first last : Byte) (vs : List Byte) (s : State), vs.length = 255 →
    ((push8 first s).mem.read (stackAddr s.cpu.sp) = first ∧
      (push8 last (vs.foldl (fun u v => push8 v u) (push8 first s))).mem.read (stackAddr s.cpu.sp) = last)) ∧
  (∀ s : State, (pull8 s).1 = s.mem.read (stackAddr (s.cpu.sp + 1)) ∧ (pull8 s).2.cpu.sp = s.cpu.sp + 1 ∧
    (pull8 s).2.cpu.flags = s.cpu.flags)

/-! ### What each instruction does, in every state (the opcode fetch is the step's) -/

/-- LDA, all eight forms (R100, R76 to R87; D12, log entry 11). -/
def Obligations.LoadAccumulatorForms : Prop :=
  ∀ (s : State) (v b : Byte) (w : Addr),
    let px := zext16 (b + s.cpu.x)
    let base := wordAt s.mem (zext16 b)
    Answers (.ldaImmediate v) s ((s.cpu.spent 1 1).loaded .a v) s.mem [.read s.cpu.pc v] ∧
    LoadsFrom (.ldaZeroPage b) .a s 1 (zext16 b) [.read s.cpu.pc b] ∧
    LoadsFrom (.ldaZeroPageX b) .a s 1 px [.read s.cpu.pc b, .internal] ∧
    LoadsFrom (.ldaAbsolute w) .a s 2 w (operandEvents s.cpu.pc w) ∧
    LoadsFrom (.ldaAbsoluteX w) .a s 2 (w + zext16 s.cpu.x)
      (operandEvents s.cpu.pc w ++ crossEvents w (w + zext16 s.cpu.x)) ∧
    LoadsFrom (.ldaAbsoluteY w) .a s 2 (w + zext16 s.cpu.y)
      (operandEvents s.cpu.pc w ++ crossEvents w (w + zext16 s.cpu.y)) ∧
    LoadsFrom (.ldaIndirectX b) .a s 1 (wordAt s.mem px)
      [.read s.cpu.pc b, .internal, readEvent s.mem px, readEvent s.mem (px + 1)] ∧
    LoadsFrom (.ldaIndirectY b) .a s 1 (base + zext16 s.cpu.y)
      ([.read s.cpu.pc b, readEvent s.mem (zext16 b), readEvent s.mem (zext16 b + 1)] ++
        crossEvents base (base + zext16 s.cpu.y))

/-- LDX, all five forms; the indexed ones use `Y` (R100, R102). -/
def Obligations.LoadIndexXForms : Prop :=
  ∀ (s : State) (v b : Byte) (w : Addr),
    Answers (.ldxImmediate v) s ((s.cpu.spent 1 1).loaded .x v) s.mem [.read s.cpu.pc v] ∧
    LoadsFrom (.ldxZeroPage b) .x s 1 (zext16 b) [.read s.cpu.pc b] ∧
    LoadsFrom (.ldxZeroPageY b) .x s 1 (zext16 (b + s.cpu.y)) [.read s.cpu.pc b, .internal] ∧
    LoadsFrom (.ldxAbsolute w) .x s 2 w (operandEvents s.cpu.pc w) ∧
    LoadsFrom (.ldxAbsoluteY w) .x s 2 (w + zext16 s.cpu.y)
      (operandEvents s.cpu.pc w ++ crossEvents w (w + zext16 s.cpu.y))

/-- LDY, all five forms; the indexed ones use `X` (R100, R103). -/
def Obligations.LoadIndexYForms : Prop :=
  ∀ (s : State) (v b : Byte) (w : Addr),
    Answers (.ldyImmediate v) s ((s.cpu.spent 1 1).loaded .y v) s.mem [.read s.cpu.pc v] ∧
    LoadsFrom (.ldyZeroPage b) .y s 1 (zext16 b) [.read s.cpu.pc b] ∧
    LoadsFrom (.ldyZeroPageX b) .y s 1 (zext16 (b + s.cpu.x)) [.read s.cpu.pc b, .internal] ∧
    LoadsFrom (.ldyAbsolute w) .y s 2 w (operandEvents s.cpu.pc w) ∧
    LoadsFrom (.ldyAbsoluteX w) .y s 2 (w + zext16 s.cpu.x)
      (operandEvents s.cpu.pc w ++ crossEvents w (w + zext16 s.cpu.x))

/-- STA, all seven forms; the page-crossing tick is conditional as for loads (R100, R104; D14, D12, log entries 10, 11). -/
def Obligations.StoreAccumulatorForms : Prop :=
  ∀ (s : State) (b : Byte) (w : Addr),
    let px := zext16 (b + s.cpu.x)
    let base := wordAt s.mem (zext16 b)
    StoresTo (.staZeroPage b) .a s 1 (zext16 b) [.read s.cpu.pc b] ∧
    StoresTo (.staZeroPageX b) .a s 1 px [.read s.cpu.pc b, .internal] ∧
    StoresTo (.staAbsolute w) .a s 2 w (operandEvents s.cpu.pc w) ∧
    StoresTo (.staAbsoluteX w) .a s 2 (w + zext16 s.cpu.x)
      (operandEvents s.cpu.pc w ++ crossEvents w (w + zext16 s.cpu.x)) ∧
    StoresTo (.staAbsoluteY w) .a s 2 (w + zext16 s.cpu.y)
      (operandEvents s.cpu.pc w ++ crossEvents w (w + zext16 s.cpu.y)) ∧
    StoresTo (.staIndirectX b) .a s 1 (wordAt s.mem px)
      [.read s.cpu.pc b, .internal, readEvent s.mem px, readEvent s.mem (px + 1)] ∧
    StoresTo (.staIndirectY b) .a s 1 (base + zext16 s.cpu.y)
      ([.read s.cpu.pc b, readEvent s.mem (zext16 b), readEvent s.mem (zext16 b + 1)] ++
        crossEvents base (base + zext16 s.cpu.y))

/-- STX (indexed by `Y`) and STY (indexed by `X`), three forms each (R100, R105, R106). -/
def Obligations.StoreIndexForms : Prop :=
  ∀ (s : State) (b : Byte) (w : Addr),
    StoresTo (.stxZeroPage b) .x s 1 (zext16 b) [.read s.cpu.pc b] ∧
    StoresTo (.stxZeroPageY b) .x s 1 (zext16 (b + s.cpu.y)) [.read s.cpu.pc b, .internal] ∧
    StoresTo (.stxAbsolute w) .x s 2 w (operandEvents s.cpu.pc w) ∧
    StoresTo (.styZeroPage b) .y s 1 (zext16 b) [.read s.cpu.pc b] ∧
    StoresTo (.styZeroPageX b) .y s 1 (zext16 (b + s.cpu.x)) [.read s.cpu.pc b, .internal] ∧
    StoresTo (.styAbsolute w) .y s 2 w (operandEvents s.cpu.pc w)

/-- JMP absolute and indirect (R111, R82, R85): `PC` and the counters only. -/
def Obligations.JumpForms : Prop :=
  ∀ (s : State) (w : Addr),
    Answers (.jmpAbsolute w) s { s.cpu.spent 2 2 with pc := w } s.mem (operandEvents s.cpu.pc w) ∧
    Answers (.jmpIndirect w) s { s.cpu.spent 2 4 with pc := wordAt s.mem w } s.mem
      (operandEvents s.cpu.pc w ++ [readEvent s.mem w, readEvent s.mem (w + 1)])

/-- JSR and RTS (R112, R113; D11, D13, D16, log entries 10, 11). `s` is after the opcode fetch, so the address of the
instruction's last byte is `PC` plus one. JSR stores it, high byte first at the higher stack address; RTS goes to the
pulled word plus one. -/
def Obligations.CallAndReturn : Prop :=
  ∀ (s : State) (w : Addr),
    Answers (.jsrAbsolute w) s { s.cpu.spent 2 5 with sp := s.cpu.sp - 2, pc := w }
      ((s.mem.write (stackAddr s.cpu.sp) (highByte (s.cpu.pc + 1))).write (stackAddr (s.cpu.sp - 1))
        (lowByte (s.cpu.pc + 1)))
      (operandEvents s.cpu.pc w ++ [.write (stackAddr s.cpu.sp) (highByte (s.cpu.pc + 1)),
        .write (stackAddr (s.cpu.sp - 1)) (lowByte (s.cpu.pc + 1)), .internal]) ∧
    Answers .rts s { s.cpu.spent 0 3 with
        sp := s.cpu.sp + 2
        pc := joinBytes (s.mem.read (stackAddr (s.cpu.sp + 2))) (s.mem.read (stackAddr (s.cpu.sp + 1))) + 1 }
      s.mem [readEvent s.mem (stackAddr (s.cpu.sp + 1)), readEvent s.mem (stackAddr (s.cpu.sp + 2)), .internal]

/-- PHA (R121): 0x48, one byte, two cycles; `A` goes to 0x0100 plus `SP`, `SP` decrements; nothing else. -/
def Obligations.PhaPushesAccumulator : Prop :=
  (∀ s : State, Answers .pha s { s.cpu.spent 0 1 with sp := s.cpu.sp - 1 } (s.mem.write (stackAddr s.cpu.sp) s.cpu.a)
    [.write (stackAddr s.cpu.sp) s.cpu.a]) ∧
  (∀ s : State, s.mem.read s.cpu.pc = 0x48#8 → ∃ t, step s = .next t ∧
    t.cpu = { s.cpu with pc := s.cpu.pc + 1, sp := s.cpu.sp - 1, remaining := s.cpu.remaining - 2, used := s.cpu.used + 2, lastOpcode := 0x48#8 } ∧
    (∀ a, t.mem.read a = if a = stackAddr s.cpu.sp then s.cpu.a else s.mem.read a) ∧
    t.events = [.read s.cpu.pc 0x48#8, .write (stackAddr s.cpu.sp) s.cpu.a])

/-- PHP, PLA and PLP (R122, R123, R124): the flag byte image pushed, flags unchanged; the pulled byte into `A` with Z and
N; the pulled byte into all seven flags. Bit 7 of the image is D15 (log entry 12). -/
def Obligations.StatusPushAndPulls : Prop :=
  ∀ s : State,
    let up := stackAddr (s.cpu.sp + 1)
    Answers .php s { s.cpu.spent 0 1 with sp := s.cpu.sp - 1 } (s.mem.write (stackAddr s.cpu.sp) (packP s.cpu.flags))
      [.write (stackAddr s.cpu.sp) (packP s.cpu.flags)] ∧
    Answers .pla s ({ s.cpu.spent 0 1 with sp := s.cpu.sp + 1 }.loaded .a (s.mem.read up)) s.mem [readEvent s.mem up] ∧
    Answers .plp s { s.cpu.spent 0 1 with sp := s.cpu.sp + 1, flags := unpackP (s.mem.read up) } s.mem
      [readEvent s.mem up]

/-- TSX copies the stack offset to `X` and derives Z and N (R125); TXS copies `X` to `SP` and writes no flag (R126);
neither touches memory or spends a cycle beyond the fetch. -/
def Obligations.StackPointerTransfers : Prop :=
  ∀ s : State,
    Answers .tsx s (s.cpu.loaded .x s.cpu.sp) s.mem [] ∧
    Answers .txs s { s.cpu with sp := s.cpu.x } s.mem []

/-- NOP (R130): 0xEA and no other byte, one byte, one cycle; nothing beyond the opcode fetch. -/
def Obligations.NopOnlyFetches : Prop :=
  (∀ s : State, exec .nop s = .next s) ∧
  (∀ s : State, s.mem.read s.cpu.pc = 0xEA#8 → ∃ t, step s = .next t ∧
    t.cpu = { s.cpu with pc := s.cpu.pc + 1, remaining := s.cpu.remaining - 1, used := s.cpu.used + 1, lastOpcode := 0xEA#8 } ∧
    t.mem = s.mem ∧ t.events = [.read s.cpu.pc 0xEA#8]) ∧
  (∀ (b : Byte) (row : Row), decodeOpcode b = some row → (row.operation = .nop ↔ b = 0xEA#8))

/-! ### Frames and whole-machine rules -/

/-- Which instructions change which register (R11, R12, R14, R17): `A` LDA and PLA; `X` LDX and TSX; `Y` LDY; `SP` the
pushes, the pulls, JSR, RTS and TXS; `lastOpcode` no instruction (the step's opcode fetch writes it). -/
def Obligations.RegisterFrame : Prop :=
  ∀ (i : Instr) (s t : State), exec i s = .next t →
    (i.operation ≠ .lda → i.operation ≠ .pla → t.cpu.a = s.cpu.a) ∧
    (i.operation ≠ .ldx → i.operation ≠ .tsx → t.cpu.x = s.cpu.x) ∧
    (i.operation ≠ .ldy → t.cpu.y = s.cpu.y) ∧
    (i.operation.writesSp = false → t.cpu.sp = s.cpu.sp) ∧
    t.cpu.lastOpcode = s.cpu.lastOpcode

/-- Every byte of memory is unchanged except those the instruction stores to, at the addresses its meaning computes; a form
that stores nothing leaves all of memory as it is. -/
def Obligations.MemoryFrame : Prop :=
  ∀ (i : Instr) (s t : State), exec i s = .next t →
    (∀ a, a ∉ storedAddrs i s → t.mem.read a = s.mem.read a) ∧ (storedAddrs i s = [] → t.mem = s.mem)

/-- `PC` through a step (R13, R74): every instruction but JMP, JSR and RTS advances it by the instruction's length, modulo
65536. -/
def Obligations.PcAdvancesByLength : Prop :=
  ∀ (i : Instr) (s : State), BytesAt s.mem s.cpu.pc (encode i) → i.operation.transfers = false →
    ∃ t, step s = .next t ∧ t.cpu.pc.toNat = (s.cpu.pc.toNat + i.mode.length) % 65536

/-- The cycle cost of every instruction (R96, R171's first column; the totals rest on C1, D13, D14, log entry 10). -/
def Obligations.CycleTotals : Prop :=
  ∀ (i : Instr) (s : State), BytesAt s.mem s.cpu.pc (encode i) →
    ∃ t, step s = .next t ∧ t.cpu.used = s.cpu.used + cycleTotal i (fetchOpcode s) ∧
      t.cpu.remaining = s.cpu.remaining - (cycleTotal i (fetchOpcode s) : Int) ∧
      1 ≤ cycleTotal i (fetchOpcode s) ∧ cycleTotal i (fetchOpcode s) ≤ 6

/-- Memory order (R47, R49): in the bus events of a step, every read, operand bytes included, returns the latest write
before it in tick order or the byte memory held, and memory after the step is memory before it with the step's writes
applied in order. -/
def Obligations.BusEventsReplayToMemory : Prop :=
  ∀ s t : State, step s = .next t → replay s.mem t.events = some t.mem

/-- The invariant is kept by every step, and holds of the state a decode failure leaves. -/
def Obligations.StepKeepsInv : Prop :=
  ∀ s : State, Inv s → (∀ t, step s = .next t → Inv t) ∧
    (∀ op addr t, step s = .fault (.unsupportedOpcode op addr t) → Inv t)

/-- The invariant holds at reset. -/
def Obligations.InvHoldsAtReset : Prop := Inv State.reset

/-- Any sequence of host calls keeps memory in its canonical form. -/
def Obligations.SessionKeepsMemoryCanonical : Prop :=
  ∀ (calls : List HostCall) (s : State), s.mem.wf = true → (session calls s).mem.wf = true

/-- The values after reset (R24, R160: the spec's decisions D8, D18, log entry 3; `RESET_PC` and `INIT_MEM` of
`State.reset` are the model's choices, log entries 1 and 2); the host's reset with any `RESET_PC` gives the same values
and does not change memory. -/
def Obligations.ResetValues : Prop :=
  ∀ (pc0 : Addr) (s : State),
    (resetProcessor pc0 s).cpu = ⟨0x00#8, 0x00#8, 0x00#8, 0xFF#8, pc0, ⟨false, false, false, false, false, false, false⟩,
      0, 0, 0x00#8⟩ ∧
    (resetProcessor pc0 s).mem = s.mem ∧ State.reset.cpu = (resetProcessor 0x0000#16 s).cpu ∧
    (∀ a, State.reset.mem.read a = 0x00#8) ∧ snapshot (resetProcessor pc0 s) = (resetProcessor pc0 s).cpu

/-- Unloaded memory is 0x00, an unsupported opcode, so a machine reset and not loaded stops at its first step with
`DecodeFailure(0x00, RESET_PC)` (R169; the byte and the address are the model's choices, log entries 1 and 2). -/
def Obligations.UnloadedMachineReportsDecodeFailure : Prop :=
  ∀ (pc0 : Addr) (budget : Nat),
    (execute (budget + 1) (resetProcessor pc0 State.reset)).result = .decodeFailure 0x00#8 pc0

/-- The counters and `lastOpcode` influence nothing a program can see (R17, R150): two states that differ only there step
to states with the same registers, flags, memory and bus events. -/
def Obligations.CountersInfluenceNothing : Prop :=
  ∀ (s t : State) (r : Int) (u : Nat) (o : Byte), step s = .next t →
    ∃ t', step { s with cpu := { s.cpu with remaining := r, used := u, lastOpcode := o } } = .next t' ∧
      t'.cpu.sameRegisters t.cpu ∧ t'.cpu.flags = t.cpu.flags ∧ t'.cpu.lastOpcode = t.cpu.lastOpcode ∧
      t'.mem = t.mem ∧ t'.events = t.events

/-- Fetch is coherent with stores (R49), for every instruction that stores: the one byte that a form of STA, STX or STY,
PHA or PHP stores is what the next fetch from its address returns, whatever the address; at the next opcode it is the
next opcode, and 0xEA there runs as NOP; at the byte after it, it is the operand of an LDA immediate that stands next.
JSR to one of the two stack bytes it writes fetches that byte as its next opcode. The image PHP stores has bit 7 from
D15 (log entry 12), the stack addresses and the return address wrap by D11 and D16, pointers by D12 (log
entry 11), the pairs and bytes of the table are D1 and D2 (log entry 9); 0xEA, 0xA9 and 0x20 are printed by the source. -/
def Obligations.StoreIsSeenByNextFetch : Prop :=
  ∀ s : State,
    (∀ (i : Instr) (v : Byte), BytesAt s.mem s.cpu.pc (encode i) → storedByte i.operation s.cpu = some v →
      ∃ t ea, step s = .next t ∧ t.cpu.pc = s.cpu.pc + BitVec.ofNat 16 i.mode.length ∧
        storedAddrs i (fetchOpcode s) = [ea] ∧ (fetchByte (t.setPc ea)).1 = v ∧
        (ea = t.cpu.pc → nextOpcode t = v ∧
          (v = 0xEA#8 → ∃ u, step t = .next u ∧
            u.cpu = { t.cpu with pc := t.cpu.pc + 1, remaining := t.cpu.remaining - 1, used := t.cpu.used + 1, lastOpcode := 0xEA#8 } ∧
            u.mem = t.mem ∧ u.events = [.read t.cpu.pc 0xEA#8])) ∧
        (ea = t.cpu.pc + 1 → nextOpcode t = 0xA9#8 → ∃ u, step t = .next u ∧
          u.cpu = { (t.cpu.spent 2 2).loaded .a v with lastOpcode := 0xA9#8 } ∧
          u.mem = t.mem ∧ u.events = [.read t.cpu.pc 0xA9#8, .read ea v])) ∧
    (∀ w : Addr, BytesAt s.mem s.cpu.pc (encode (.jsrAbsolute w)) →
      ∃ t, step s = .next t ∧ t.cpu.pc = w ∧
        (w = stackAddr s.cpu.sp → nextOpcode t = highByte (s.cpu.pc + 2)) ∧
        (w = stackAddr (s.cpu.sp - 1) → nextOpcode t = lowByte (s.cpu.pc + 2)))

/-- What an observer sees at the last tick (R75, R112, R154): JSR's last tick already sees the target; the data read of a
load still sees the old register and flags; a push still sees the old `SP` (D17, log entry 15). -/
def Obligations.ObserverSeesStateBetweenTicks : Prop :=
  ∀ (s : State) (w : Addr),
    (∃ t v, exec (.jsrAbsolute w) s = .next t ∧ t.trace.getLast? = some ⟨.internal, v⟩ ∧ v = t.cpu ∧ v.pc = w) ∧
    (∃ t v, exec (.ldaAbsolute w) s = .next t ∧ t.trace.getLast? = some ⟨readEvent s.mem w, v⟩ ∧ v.a = s.cpu.a ∧
      v.flags = s.cpu.flags ∧ v.used = t.cpu.used) ∧
    (∃ t v, exec .pha s = .next t ∧ t.trace.getLast? = some ⟨.write (stackAddr s.cpu.sp) s.cpu.a, v⟩ ∧
      v.sp = s.cpu.sp ∧ v.used = t.cpu.used)

/-- JSR then RTS (R113's round trip): when an RTS stands at the target, clear of the two pushed bytes, the second step
returns to the byte after the JSR, `SP` is as before, and no register or flag has changed; 10 cycles (D13, log entry
10). At the edges of the stack page and of memory it rests on D11 and D16 (log entry 11). The bytes 0x20 and 0x60 are
printed by the source. -/
def Obligations.JsrThenRtsReturns : Prop :=
  ∀ (s : State) (w : Addr), BytesAt s.mem s.cpu.pc [0x20#8, lowByte w, highByte w] → s.mem.read w = 0x60#8 →
    w ≠ stackAddr s.cpu.sp → w ≠ stackAddr (s.cpu.sp - 1) →
    ∃ u t, step s = .next u ∧ u.cpu.pc = w ∧ step u = .next t ∧ t.cpu.pc = s.cpu.pc + 3 ∧ t.cpu.sp = s.cpu.sp ∧
      t.cpu.a = s.cpu.a ∧ t.cpu.x = s.cpu.x ∧ t.cpu.y = s.cpu.y ∧ t.cpu.flags = s.cpu.flags ∧
      t.cpu.used = s.cpu.used + 10

/-! ### `execute` and the host -/

/-- `execute` ends with one of its two results, and every cycle of the call is a tick of its record. The two results are
D20, and that `remaining` is the budget less the ticks rests on D5, the budget assigned and not added (log entry 13);
the record of ticks is the model's own (DESIGN CHOICE, log entry 4). -/
def Obligations.ExecuteAlwaysEnds : Prop :=
  ∀ (budget : Nat) (s : State),
    ((execute budget s).result = .completed ∨ ∃ op addr, (execute budget s).result = .decodeFailure op addr) ∧
    (execute budget s).final.cpu.used = s.cpu.used + (execute budget s).ticks.length ∧
    (execute budget s).final.cpu.remaining = (budget : Int) - ((execute budget s).ticks.length : Int)

/-- Run to completion (R71): on `Completed` the remaining-cycle counter is between -5 and 0 (the assignment of the budget
and the loop test are D5, D7, log entry 13). -/
def Obligations.ExecuteOverrunsAtMostFive : Prop :=
  ∀ (budget : Nat) (s : State), (execute budget s).result = .completed →
    -5 ≤ (execute budget s).final.cpu.remaining ∧ (execute budget s).final.cpu.remaining ≤ 0

/-- A decode failure aborts the call (R140 to R142, R146; D3, D4, D20, log entry 5): `PC` is after the failing byte,
`lastOpcode` holds it, it has no row, and the budget left is not altered. -/
def Obligations.ExecuteReportsDecodeFailure : Prop :=
  ∀ (budget : Nat) (s : State) (op : Byte) (addr : Addr), (execute budget s).result = .decodeFailure op addr →
    (execute budget s).final.cpu.pc = addr + 1 ∧ (execute budget s).final.cpu.lastOpcode = op ∧
    (execute budget s).final.mem.read addr = op ∧ decodeOpcode op = none ∧
    0 ≤ (execute budget s).final.cpu.remaining

/-- `execute(0)` does nothing but set `remaining`; `execute(1)` runs exactly one step (R70, R154; D5, D7, log entry 13). -/
def Obligations.ExecuteZeroAndOne : Prop :=
  ∀ s : State,
    execute 0 s = ⟨.completed, { s with cpu := { s.cpu with remaining := 0 } }, []⟩ ∧
    (∀ t, step { s with cpu := { s.cpu with remaining := 1 } } = .next t →
      execute 1 s = ⟨.completed, t, t.trace⟩) ∧
    (∀ op addr t, step { s with cpu := { s.cpu with remaining := 1 } } = .fault (.unsupportedOpcode op addr t) →
      execute 1 s = ⟨.decodeFailure op addr, t, t.trace⟩)

/-- A budget equal to the summed cost of the next instructions runs exactly those and ends with `remaining` 0 (R71 (c);
D5, D7, log entry 13). -/
def Obligations.ExactBudgetRunsExactly : Prop :=
  ∀ (k n : Nat) (s t : State), Runs k { s with cpu := { s.cpu with remaining := (n : Int) } } t →
    t.cpu.used = s.cpu.used + n →
    (execute n s).result = .completed ∧ (execute n s).final = t ∧ t.cpu.remaining = 0

/-- The bulk load (R33): with one entry per address, every entry's byte is written, 0x00 where its value is absent; every
other byte, and the processor, are unchanged. Addresses are taken modulo 65536 (R30; log entry 14). -/
def Obligations.BulkLoadWritesEveryEntry : Prop :=
  ∀ (entries : List (Nat × Option Byte)) (s : State), (entries.map (fun e => e.1 % 65536)).Nodup →
    (∀ a v, (a, v) ∈ entries → (bulkLoad entries s).mem.read (BitVec.ofNat 16 a) = v.getD 0x00#8) ∧
    (∀ b : Addr, (∀ e ∈ entries, e.1 % 65536 ≠ b.toNat) → (bulkLoad entries s).mem.read b = s.mem.read b) ∧
    (bulkLoad entries s).cpu = s.cpu ∧ (bulkLoad entries s).trace = s.trace
end

