-- ==== Sys2Proof/Laws/State.lean ====
section
/-! SUPPORT. What each update of the state does to each field: one simp lemma per field per update, so that no later
proof unfolds a record update. -/

namespace Sys2Proof.Machine

/-! ### setSp -/

@[simp] theorem State.setSp_cpu (s : State) (v : Byte) : (s.setSp v).cpu = { s.cpu with sp := v } := rfl
@[simp] theorem State.setSp_a (s : State) (v : Byte) : (s.setSp v).cpu.a = s.cpu.a := rfl
@[simp] theorem State.setSp_x (s : State) (v : Byte) : (s.setSp v).cpu.x = s.cpu.x := rfl
@[simp] theorem State.setSp_y (s : State) (v : Byte) : (s.setSp v).cpu.y = s.cpu.y := rfl
@[simp] theorem State.setSp_sp (s : State) (v : Byte) : (s.setSp v).cpu.sp = v := rfl
@[simp] theorem State.setSp_pc (s : State) (v : Byte) : (s.setSp v).cpu.pc = s.cpu.pc := rfl
@[simp] theorem State.setSp_flags (s : State) (v : Byte) : (s.setSp v).cpu.flags = s.cpu.flags := rfl
@[simp] theorem State.setSp_remaining (s : State) (v : Byte) : (s.setSp v).cpu.remaining = s.cpu.remaining := rfl
@[simp] theorem State.setSp_used (s : State) (v : Byte) : (s.setSp v).cpu.used = s.cpu.used := rfl
@[simp] theorem State.setSp_lastOpcode (s : State) (v : Byte) : (s.setSp v).cpu.lastOpcode = s.cpu.lastOpcode := rfl
@[simp] theorem State.setSp_mem (s : State) (v : Byte) : (s.setSp v).mem = s.mem := rfl
@[simp] theorem State.setSp_trace (s : State) (v : Byte) : (s.setSp v).trace = s.trace := rfl

/-! ### setPc -/

@[simp] theorem State.setPc_cpu (s : State) (v : Addr) : (s.setPc v).cpu = { s.cpu with pc := v } := rfl
@[simp] theorem State.setPc_a (s : State) (v : Addr) : (s.setPc v).cpu.a = s.cpu.a := rfl
@[simp] theorem State.setPc_x (s : State) (v : Addr) : (s.setPc v).cpu.x = s.cpu.x := rfl
@[simp] theorem State.setPc_y (s : State) (v : Addr) : (s.setPc v).cpu.y = s.cpu.y := rfl
@[simp] theorem State.setPc_sp (s : State) (v : Addr) : (s.setPc v).cpu.sp = s.cpu.sp := rfl
@[simp] theorem State.setPc_pc (s : State) (v : Addr) : (s.setPc v).cpu.pc = v := rfl
@[simp] theorem State.setPc_flags (s : State) (v : Addr) : (s.setPc v).cpu.flags = s.cpu.flags := rfl
@[simp] theorem State.setPc_remaining (s : State) (v : Addr) : (s.setPc v).cpu.remaining = s.cpu.remaining := rfl
@[simp] theorem State.setPc_used (s : State) (v : Addr) : (s.setPc v).cpu.used = s.cpu.used := rfl
@[simp] theorem State.setPc_lastOpcode (s : State) (v : Addr) : (s.setPc v).cpu.lastOpcode = s.cpu.lastOpcode := rfl
@[simp] theorem State.setPc_mem (s : State) (v : Addr) : (s.setPc v).mem = s.mem := rfl
@[simp] theorem State.setPc_trace (s : State) (v : Addr) : (s.setPc v).trace = s.trace := rfl

/-! ### setFlags -/

@[simp] theorem State.setFlags_cpu (s : State) (v : Flags) : (s.setFlags v).cpu = { s.cpu with flags := v } := rfl
@[simp] theorem State.setFlags_a (s : State) (v : Flags) : (s.setFlags v).cpu.a = s.cpu.a := rfl
@[simp] theorem State.setFlags_x (s : State) (v : Flags) : (s.setFlags v).cpu.x = s.cpu.x := rfl
@[simp] theorem State.setFlags_y (s : State) (v : Flags) : (s.setFlags v).cpu.y = s.cpu.y := rfl
@[simp] theorem State.setFlags_sp (s : State) (v : Flags) : (s.setFlags v).cpu.sp = s.cpu.sp := rfl
@[simp] theorem State.setFlags_pc (s : State) (v : Flags) : (s.setFlags v).cpu.pc = s.cpu.pc := rfl
@[simp] theorem State.setFlags_flags (s : State) (v : Flags) : (s.setFlags v).cpu.flags = v := rfl
@[simp] theorem State.setFlags_remaining (s : State) (v : Flags) : (s.setFlags v).cpu.remaining = s.cpu.remaining := rfl
@[simp] theorem State.setFlags_used (s : State) (v : Flags) : (s.setFlags v).cpu.used = s.cpu.used := rfl
@[simp] theorem State.setFlags_lastOpcode (s : State) (v : Flags) : (s.setFlags v).cpu.lastOpcode = s.cpu.lastOpcode := rfl
@[simp] theorem State.setFlags_mem (s : State) (v : Flags) : (s.setFlags v).mem = s.mem := rfl
@[simp] theorem State.setFlags_trace (s : State) (v : Flags) : (s.setFlags v).trace = s.trace := rfl

/-! ### setLastOpcode -/

@[simp] theorem State.setLastOpcode_cpu (s : State) (v : Byte) : (s.setLastOpcode v).cpu = { s.cpu with lastOpcode := v } := rfl
@[simp] theorem State.setLastOpcode_a (s : State) (v : Byte) : (s.setLastOpcode v).cpu.a = s.cpu.a := rfl
@[simp] theorem State.setLastOpcode_x (s : State) (v : Byte) : (s.setLastOpcode v).cpu.x = s.cpu.x := rfl
@[simp] theorem State.setLastOpcode_y (s : State) (v : Byte) : (s.setLastOpcode v).cpu.y = s.cpu.y := rfl
@[simp] theorem State.setLastOpcode_sp (s : State) (v : Byte) : (s.setLastOpcode v).cpu.sp = s.cpu.sp := rfl
@[simp] theorem State.setLastOpcode_pc (s : State) (v : Byte) : (s.setLastOpcode v).cpu.pc = s.cpu.pc := rfl
@[simp] theorem State.setLastOpcode_flags (s : State) (v : Byte) : (s.setLastOpcode v).cpu.flags = s.cpu.flags := rfl
@[simp] theorem State.setLastOpcode_remaining (s : State) (v : Byte) : (s.setLastOpcode v).cpu.remaining = s.cpu.remaining := rfl
@[simp] theorem State.setLastOpcode_used (s : State) (v : Byte) : (s.setLastOpcode v).cpu.used = s.cpu.used := rfl
@[simp] theorem State.setLastOpcode_lastOpcode (s : State) (v : Byte) : (s.setLastOpcode v).cpu.lastOpcode = v := rfl
@[simp] theorem State.setLastOpcode_mem (s : State) (v : Byte) : (s.setLastOpcode v).mem = s.mem := rfl
@[simp] theorem State.setLastOpcode_trace (s : State) (v : Byte) : (s.setLastOpcode v).trace = s.trace := rfl

/-! ### setReg -/

@[simp] theorem State.setReg_reg (s : State) (t : Tag) (v : Byte) : (s.setReg t v).cpu.reg t = v := by cases t <;> rfl
@[simp] theorem State.setReg_a_a (s : State) (v : Byte) : (s.setReg .a v).cpu.a = v := rfl
@[simp] theorem State.setReg_a_x (s : State) (v : Byte) : (s.setReg .a v).cpu.x = s.cpu.x := rfl
@[simp] theorem State.setReg_a_y (s : State) (v : Byte) : (s.setReg .a v).cpu.y = s.cpu.y := rfl
@[simp] theorem State.setReg_x_a (s : State) (v : Byte) : (s.setReg .x v).cpu.a = s.cpu.a := rfl
@[simp] theorem State.setReg_x_x (s : State) (v : Byte) : (s.setReg .x v).cpu.x = v := rfl
@[simp] theorem State.setReg_x_y (s : State) (v : Byte) : (s.setReg .x v).cpu.y = s.cpu.y := rfl
@[simp] theorem State.setReg_y_a (s : State) (v : Byte) : (s.setReg .y v).cpu.a = s.cpu.a := rfl
@[simp] theorem State.setReg_y_x (s : State) (v : Byte) : (s.setReg .y v).cpu.x = s.cpu.x := rfl
@[simp] theorem State.setReg_y_y (s : State) (v : Byte) : (s.setReg .y v).cpu.y = v := rfl
@[simp] theorem State.setReg_sp (s : State) (t : Tag) (v : Byte) : (s.setReg t v).cpu.sp = s.cpu.sp := by cases t <;> rfl
@[simp] theorem State.setReg_pc (s : State) (t : Tag) (v : Byte) : (s.setReg t v).cpu.pc = s.cpu.pc := by cases t <;> rfl
@[simp] theorem State.setReg_flags (s : State) (t : Tag) (v : Byte) : (s.setReg t v).cpu.flags = s.cpu.flags := by cases t <;> rfl
@[simp] theorem State.setReg_remaining (s : State) (t : Tag) (v : Byte) : (s.setReg t v).cpu.remaining = s.cpu.remaining := by cases t <;> rfl
@[simp] theorem State.setReg_used (s : State) (t : Tag) (v : Byte) : (s.setReg t v).cpu.used = s.cpu.used := by cases t <;> rfl
@[simp] theorem State.setReg_lastOpcode (s : State) (t : Tag) (v : Byte) : (s.setReg t v).cpu.lastOpcode = s.cpu.lastOpcode := by cases t <;> rfl
@[simp] theorem State.setReg_mem (s : State) (t : Tag) (v : Byte) : (s.setReg t v).mem = s.mem := by cases t <;> rfl
@[simp] theorem State.setReg_trace (s : State) (t : Tag) (v : Byte) : (s.setReg t v).trace = s.trace := by cases t <;> rfl

/-! ### reg -/

@[simp] theorem Processor.reg_a (p : Processor) : p.reg .a = p.a := rfl
@[simp] theorem Processor.reg_x (p : Processor) : p.reg .x = p.x := rfl
@[simp] theorem Processor.reg_y (p : Processor) : p.reg .y = p.y := rfl

/-! ### The tick -/

@[simp] theorem Processor.tick_a (p : Processor) : p.tick.a = p.a := rfl
@[simp] theorem Processor.tick_x (p : Processor) : p.tick.x = p.x := rfl
@[simp] theorem Processor.tick_y (p : Processor) : p.tick.y = p.y := rfl
@[simp] theorem Processor.tick_sp (p : Processor) : p.tick.sp = p.sp := rfl
@[simp] theorem Processor.tick_pc (p : Processor) : p.tick.pc = p.pc := rfl
@[simp] theorem Processor.tick_flags (p : Processor) : p.tick.flags = p.flags := rfl
@[simp] theorem Processor.tick_remaining (p : Processor) : p.tick.remaining = p.remaining - 1 := rfl
@[simp] theorem Processor.tick_used (p : Processor) : p.tick.used = p.used + 1 := rfl
@[simp] theorem Processor.tick_lastOpcode (p : Processor) : p.tick.lastOpcode = p.lastOpcode := rfl
@[simp] theorem State.tick_cpu (s : State) (e : BusEvent) : (s.tick e).cpu = s.cpu.tick := rfl
@[simp] theorem State.tick_mem (s : State) (e : BusEvent) : (s.tick e).mem = s.mem := rfl
@[simp] theorem State.tick_trace (s : State) (e : BusEvent) : (s.tick e).trace = s.trace ++ [⟨e, s.cpu.tick⟩] := rfl
@[simp] theorem State.tick_events (s : State) (e : BusEvent) : (s.tick e).events = s.events ++ [e] := by simp [State.events]
@[simp] theorem State.internalTick_cpu (s : State) : s.internalTick.cpu = s.cpu.tick := rfl
@[simp] theorem State.internalTick_mem (s : State) : s.internalTick.mem = s.mem := rfl
@[simp] theorem State.internalTick_trace (s : State) : s.internalTick.trace = s.trace ++ [⟨.internal, s.cpu.tick⟩] := rfl
@[simp] theorem State.internalTick_events (s : State) : s.internalTick.events = s.events ++ [.internal] := by simp [State.events]
@[simp] theorem State.setSp_events (s : State) (v : Byte) : (s.setSp v).events = s.events := rfl
@[simp] theorem State.setPc_events (s : State) (v : Addr) : (s.setPc v).events = s.events := rfl
@[simp] theorem State.setFlags_events (s : State) (v : Flags) : (s.setFlags v).events = s.events := rfl
@[simp] theorem State.setLastOpcode_events (s : State) (v : Byte) : (s.setLastOpcode v).events = s.events := rfl
@[simp] theorem State.setReg_events (s : State) (t : Tag) (v : Byte) : (s.setReg t v).events = s.events := by cases t <;> rfl

/-! ### Flags -/

@[simp] theorem Flags.withZN_c (f : Flags) (r : Byte) : (f.withZN r).c = f.c := rfl
@[simp] theorem Flags.withZN_z (f : Flags) (r : Byte) : (f.withZN r).z = (r == 0x00#8) := rfl
@[simp] theorem Flags.withZN_i (f : Flags) (r : Byte) : (f.withZN r).i = f.i := rfl
@[simp] theorem Flags.withZN_d (f : Flags) (r : Byte) : (f.withZN r).d = f.d := rfl
@[simp] theorem Flags.withZN_b (f : Flags) (r : Byte) : (f.withZN r).b = f.b := rfl
@[simp] theorem Flags.withZN_v (f : Flags) (r : Byte) : (f.withZN r).v = f.v := rfl
@[simp] theorem Flags.withZN_n (f : Flags) (r : Byte) : (f.withZN r).n = r.getLsbD 7 := rfl

end Sys2Proof.Machine
end

