-- ==== Sys2Proof/Laws/Memory.lean ====
section
/-! SUPPORT. The laws of memory: read after write, and every memory operation keeps the canonical form. -/

namespace Sys2Proof.Machine

theorem Memory.lookup_insertCell (m : Memory) (a k : Nat) (v : Byte) (h : ∀ c ∈ m, c.1 ≠ a) :
    (m.insertCell a v).lookup k = if k = a then v else m.lookup k := by
  induction m with
  | nil => simp [Memory.insertCell, Memory.lookup, eq_comm]
  | cons c rest ih =>
    obtain ⟨i, w⟩ := c
    have hi : i ≠ a := h (i, w) (by simp)
    have ih := ih (fun c hc => h c (List.mem_cons_of_mem _ hc))
    unfold Memory.insertCell
    split
    · simp [Memory.lookup, eq_comm]
    · simp only [Memory.lookup, ih]
      by_cases hik : i = k
      · subst hik; simp [hi]
      · simp [hik]

theorem Memory.lookup_filter (m : Memory) (a k : Nat) :
    Memory.lookup (m.filter (fun c => c.1 ≠ a)) k = if k = a then Config.initByte else m.lookup k := by
  induction m with
  | nil => simp [Memory.lookup]
  | cons c rest ih =>
    obtain ⟨i, w⟩ := c
    by_cases hia : i = a
    · subst hia
      simp only [ne_eq, List.filter_cons, not_true_eq_false, decide_false, Bool.false_eq_true, if_false,
        Memory.lookup] at ih ⊢
      rw [ih]
      by_cases hk : k = i <;> simp [hk, eq_comm]
    · simp only [ne_eq, List.filter_cons, hia, not_false_eq_true, decide_true, if_true, Memory.lookup] at ih ⊢
      rw [ih]
      by_cases hik : i = k
      · subst hik; simp [hia]
      · simp [hik]

/-- A write changes the byte at its own address and no other (R32). -/
theorem Memory.read_write (m : Memory) (a b : Addr) (v : Byte) :
    (m.write a v).read b = if b = a then v else m.read b := by
  have hab : b.toNat = a.toNat ↔ b = a := BitVec.toNat_inj
  unfold Memory.write Memory.read
  by_cases hv : v = Config.initByte
  · simp only [hv, if_true, Memory.lookup_filter, hab]
  · simp only [hv, if_false]
    rw [Memory.lookup_insertCell _ _ _ _ (by simp), Memory.lookup_filter]
    simp only [hab]
    by_cases h : b = a <;> simp [h]

@[simp] theorem Memory.read_write_same (m : Memory) (a : Addr) (v : Byte) : (m.write a v).read a = v := by
  simp [Memory.read_write]

theorem Memory.read_write_other (m : Memory) {a b : Addr} (v : Byte) (h : b ≠ a) :
    (m.write a v).read b = m.read b := by
  simp [Memory.read_write, h]

@[simp] theorem Memory.read_nil (a : Addr) : Memory.read [] a = Config.initByte := rfl

/-! ### The canonical form -/

theorem Memory.wfFrom_mono {m : Memory} {lo hi : Nat} (h : m.wfFrom hi = true) (hle : lo ≤ hi) :
    m.wfFrom lo = true := by
  cases m with
  | nil => rfl
  | cons c rest =>
    obtain ⟨k, v⟩ := c
    simp only [Memory.wfFrom, Bool.and_eq_true, decide_eq_true_eq] at h ⊢
    exact ⟨⟨⟨by omega, h.1.1.2⟩, h.1.2⟩, h.2⟩

theorem Memory.wfFrom_filter {m : Memory} {lo : Nat} (a : Nat) (h : m.wfFrom lo = true) :
    Memory.wfFrom (m.filter (fun c => c.1 ≠ a)) lo = true := by
  induction m generalizing lo with
  | nil => rfl
  | cons c rest ih =>
    obtain ⟨k, v⟩ := c
    simp only [Memory.wfFrom, Bool.and_eq_true, decide_eq_true_eq] at h
    obtain ⟨⟨⟨hlo, hk⟩, hv⟩, hr⟩ := h
    by_cases hka : k = a
    · simp only [ne_eq, List.filter_cons, hka, not_true_eq_false, decide_false, Bool.false_eq_true, if_false]
      exact Memory.wfFrom_mono (ih hr) (by omega)
    · simp only [ne_eq, List.filter_cons, hka, not_false_eq_true, decide_true, if_true, Memory.wfFrom,
        Bool.and_eq_true, decide_eq_true_eq]
      exact ⟨⟨⟨hlo, hk⟩, hv⟩, ih hr⟩

theorem Memory.wfFrom_insertCell {m : Memory} {lo a : Nat} {v : Byte} (h : m.wfFrom lo = true) (hlo : lo ≤ a)
    (ha : a < 65536) (hv : v ≠ Config.initByte) (hn : ∀ c ∈ m, c.1 ≠ a) :
    (m.insertCell a v).wfFrom lo = true := by
  induction m generalizing lo with
  | nil => simp [Memory.insertCell, Memory.wfFrom, hlo, ha, hv]
  | cons c rest ih =>
    obtain ⟨k, w⟩ := c
    have hka : k ≠ a := hn (k, w) (by simp)
    simp only [Memory.wfFrom, Bool.and_eq_true, decide_eq_true_eq] at h
    obtain ⟨⟨⟨hlo', hk⟩, hw⟩, hr⟩ := h
    unfold Memory.insertCell
    split
    · next hlt =>
      simp only [Memory.wfFrom, Bool.and_eq_true, decide_eq_true_eq]
      exact ⟨⟨⟨hlo, ha⟩, hv⟩, ⟨⟨by omega, hk⟩, hw⟩, hr⟩
    · next hge =>
      simp only [Memory.wfFrom, Bool.and_eq_true, decide_eq_true_eq]
      exact ⟨⟨⟨hlo', hk⟩, hw⟩, ih hr (by omega) (fun c hc => hn c (List.mem_cons_of_mem _ hc))⟩

/-- A write keeps the canonical form. -/
@[simp] theorem Memory.write_wf {m : Memory} (a : Addr) (v : Byte) (h : m.wf = true) : (m.write a v).wf = true := by
  unfold Memory.write
  dsimp only
  split
  · exact Memory.wfFrom_filter _ h
  · next hv =>
    exact Memory.wfFrom_insertCell (Memory.wfFrom_filter _ h) (Nat.zero_le _) a.isLt hv (by simp)

theorem placeBytes_wf (a : Addr) (bs : List Byte) {m : Memory} (h : m.wf = true) : (placeBytes a bs m).wf = true := by
  induction bs generalizing a m with
  | nil => exact h
  | cons b rest ih => exact ih (a + 1) (Memory.write_wf a b h)

theorem bulkLoadMemory_wf (entries : List (Nat × Option Byte)) {m : Memory} (h : m.wf = true) :
    (bulkLoadMemory entries m).wf = true := by
  induction entries generalizing m with
  | nil => exact h
  | cons e rest ih => exact ih (Memory.write_wf _ _ h)

theorem State.reset_wf : State.reset.mem.wf = true := rfl

end Sys2Proof.Machine
end

