-- ==== Sys2Proof/Laws/Ops.lean ====
section
/-! SUPPORT. One spec lemma for each shared operation: everything it does to processor, memory and bus events. -/

namespace Sys2Proof.Machine

/-! ### Bytes and words -/

@[simp] theorem lowByte_joinBytes (hi lo : Byte) : lowByte (joinBytes hi lo) = lo := by
  simp only [lowByte, joinBytes, BitVec.setWidth_append]; rfl

@[simp] theorem joinBytes_toNat (hi lo : Byte) : (joinBytes hi lo).toNat = hi.toNat * 256 + lo.toNat := by
  have := lo.isLt
  simp only [joinBytes, BitVec.toNat_append, Nat.shiftLeft_eq]
  rw [Nat.mul_comm, Nat.two_pow_add_eq_or_of_lt (by simpa using lo.isLt) hi.toNat |>.symm, Nat.mul_comm]

@[simp] theorem lowByte_toNat (w : Addr) : (lowByte w).toNat = w.toNat % 256 := by simp [lowByte]

@[simp] theorem highByte_toNat (w : Addr) : (highByte w).toNat = w.toNat / 256 := by
  have := w.isLt
  simp only [highByte, BitVec.toNat_setWidth, BitVec.toNat_ushiftRight, Nat.shiftRight_eq_div_pow]
  omega

@[simp] theorem zext16_toNat (b : Byte) : (zext16 b).toNat = b.toNat := by
  have := b.isLt
  simp only [zext16, BitVec.toNat_setWidth]
  omega

@[simp] theorem highByte_joinBytes (hi lo : Byte) : highByte (joinBytes hi lo) = hi := by
  apply BitVec.eq_of_toNat_eq
  have := lo.isLt
  simp only [highByte_toNat, joinBytes_toNat]
  omega

@[simp] theorem joinBytes_high_low (w : Addr) : joinBytes (highByte w) (lowByte w) = w := by
  apply BitVec.eq_of_toNat_eq
  simp only [joinBytes_toNat, highByte_toNat, lowByte_toNat]
  omega

/-! ### Bus primitives -/

@[simp] theorem readByte_fst (a : Addr) (s : State) : (readByte a s).1 = s.mem.read a := rfl
@[simp] theorem readByte_snd (a : Addr) (s : State) : (readByte a s).2 = s.tick (.read a (s.mem.read a)) := rfl

@[simp] theorem writeByte_cpu (a : Addr) (v : Byte) (s : State) : (writeByte a v s).cpu = s.cpu.tick := rfl
@[simp] theorem writeByte_mem (a : Addr) (v : Byte) (s : State) : (writeByte a v s).mem = s.mem.write a v := rfl
@[simp] theorem writeByte_trace (a : Addr) (v : Byte) (s : State) :
    (writeByte a v s).trace = s.trace ++ [⟨.write a v, s.cpu.tick⟩] := rfl
@[simp] theorem writeByte_events (a : Addr) (v : Byte) (s : State) :
    (writeByte a v s).events = s.events ++ [.write a v] := by simp [State.events]

@[simp] theorem readWord_fst (a : Addr) (s : State) :
    (readWord a s).1 = wordAt s.mem a := rfl
@[simp] theorem readWord_snd (a : Addr) (s : State) :
    (readWord a s).2 = (s.tick (.read a (s.mem.read a))).tick (.read (a + 1) (s.mem.read (a + 1))) := rfl

/-! ### Operand fetches -/

@[simp] theorem takeByte_cpu (v : Byte) (s : State) : (takeByte v s).cpu = s.cpu.spent 1 1 := rfl
@[simp] theorem takeByte_mem (v : Byte) (s : State) : (takeByte v s).mem = s.mem := rfl
@[simp] theorem takeByte_events (v : Byte) (s : State) :
    (takeByte v s).events = s.events ++ [.read s.cpu.pc v] := by simp [takeByte]

@[simp] theorem takeWord_cpu (w : Addr) (s : State) : (takeWord w s).cpu = s.cpu.spent 2 2 := by
  simp only [takeWord, State.setPc, State.tick, Processor.tick, Processor.spent, Processor.mk.injEq, true_and,
    and_true]
  omega
@[simp] theorem takeWord_mem (w : Addr) (s : State) : (takeWord w s).mem = s.mem := rfl
@[simp] theorem takeWord_events (w : Addr) (s : State) :
    (takeWord w s).events =
      s.events ++ [.read s.cpu.pc (lowByte w), .read (s.cpu.pc + 1) (highByte w)] := by simp [takeWord]

/-- `fetchByte` is the operand fetch of the byte that stands at `PC`. -/
theorem fetchByte_eq (s : State) : fetchByte s = (s.mem.read s.cpu.pc, takeByte (s.mem.read s.cpu.pc) s) := rfl

/-- `fetchWord` is the operand fetch of the word that stands at `PC`. -/
theorem fetchWord_eq (s : State) :
    fetchWord s = (wordAt s.mem s.cpu.pc, takeWord (wordAt s.mem s.cpu.pc) s) := by
  simp [fetchWord, takeWord, wordAt]

/-! ### The processor algebra -/

@[simp] theorem Processor.tick_eq (p : Processor) : p.tick = p.spent 0 1 := by
  simp [Processor.tick, Processor.spent]

@[simp] theorem Processor.spent_spent (p : Processor) (l k : Addr) (m n : Nat) :
    (p.spent l m).spent k n = p.spent (l + k) (m + n) := by
  simp only [Processor.spent, Processor.mk.injEq, true_and, and_true, BitVec.add_assoc]
  omega

@[simp] theorem Processor.spent_a (p : Processor) (l : Addr) (n : Nat) : (p.spent l n).a = p.a := rfl
@[simp] theorem Processor.spent_x (p : Processor) (l : Addr) (n : Nat) : (p.spent l n).x = p.x := rfl
@[simp] theorem Processor.spent_y (p : Processor) (l : Addr) (n : Nat) : (p.spent l n).y = p.y := rfl
@[simp] theorem Processor.spent_sp (p : Processor) (l : Addr) (n : Nat) : (p.spent l n).sp = p.sp := rfl
@[simp] theorem Processor.spent_flags (p : Processor) (l : Addr) (n : Nat) : (p.spent l n).flags = p.flags := rfl
@[simp] theorem Processor.spent_lastOpcode (p : Processor) (l : Addr) (n : Nat) : (p.spent l n).lastOpcode = p.lastOpcode := rfl
@[simp] theorem Processor.spent_pc (p : Processor) (l : Addr) (n : Nat) : (p.spent l n).pc = p.pc + l := rfl
@[simp] theorem Processor.spent_remaining (p : Processor) (l : Addr) (n : Nat) :
    (p.spent l n).remaining = p.remaining - (n : Int) := rfl
@[simp] theorem Processor.spent_used (p : Processor) (l : Addr) (n : Nat) : (p.spent l n).used = p.used + n := rfl
@[simp] theorem Processor.spent_reg (p : Processor) (l : Addr) (n : Nat) (t : Tag) :
    (p.spent l n).reg t = p.reg t := by cases t <;> rfl

@[simp] theorem Processor.loaded_reg (p : Processor) (t : Tag) (v : Byte) : (p.loaded t v).reg t = v := by
  cases t <;> rfl
@[simp] theorem Processor.loaded_flags (p : Processor) (t : Tag) (v : Byte) :
    (p.loaded t v).flags = { p.flags with z := decide (v.toNat = 0), n := decide (128 ≤ v.toNat) } := by
  cases t <;> rfl
@[simp] theorem Processor.loaded_a_a (p : Processor) (v : Byte) : (p.loaded .a v).a = v := rfl
@[simp] theorem Processor.loaded_a_x (p : Processor) (v : Byte) : (p.loaded .a v).x = p.x := rfl
@[simp] theorem Processor.loaded_a_y (p : Processor) (v : Byte) : (p.loaded .a v).y = p.y := rfl
@[simp] theorem Processor.loaded_x_a (p : Processor) (v : Byte) : (p.loaded .x v).a = p.a := rfl
@[simp] theorem Processor.loaded_x_x (p : Processor) (v : Byte) : (p.loaded .x v).x = v := rfl
@[simp] theorem Processor.loaded_x_y (p : Processor) (v : Byte) : (p.loaded .x v).y = p.y := rfl
@[simp] theorem Processor.loaded_y_a (p : Processor) (v : Byte) : (p.loaded .y v).a = p.a := rfl
@[simp] theorem Processor.loaded_y_x (p : Processor) (v : Byte) : (p.loaded .y v).x = p.x := rfl
@[simp] theorem Processor.loaded_y_y (p : Processor) (v : Byte) : (p.loaded .y v).y = v := rfl
@[simp] theorem Processor.loaded_sp (p : Processor) (t : Tag) (v : Byte) : (p.loaded t v).sp = p.sp := by
  cases t <;> rfl
@[simp] theorem Processor.loaded_pc (p : Processor) (t : Tag) (v : Byte) : (p.loaded t v).pc = p.pc := by
  cases t <;> rfl
@[simp] theorem Processor.loaded_remaining (p : Processor) (t : Tag) (v : Byte) : (p.loaded t v).remaining = p.remaining := by
  cases t <;> rfl
@[simp] theorem Processor.loaded_used (p : Processor) (t : Tag) (v : Byte) : (p.loaded t v).used = p.used := by
  cases t <;> rfl
@[simp] theorem Processor.loaded_lastOpcode (p : Processor) (t : Tag) (v : Byte) : (p.loaded t v).lastOpcode = p.lastOpcode := by
  cases t <;> rfl

/-! ### The stack engine -/

@[simp] theorem push8_cpu (v : Byte) (s : State) :
    (push8 v s).cpu = { s.cpu.spent 0 1 with sp := s.cpu.sp - 1 } := by
  simp [push8, State.setSp, Processor.spent]
@[simp] theorem push8_mem (v : Byte) (s : State) : (push8 v s).mem = s.mem.write (stackAddr s.cpu.sp) v := rfl
@[simp] theorem push8_events (v : Byte) (s : State) :
    (push8 v s).events = s.events ++ [.write (stackAddr s.cpu.sp) v] := by simp [push8]

@[simp] theorem pull8_fst (s : State) : (pull8 s).1 = s.mem.read (stackAddr (s.cpu.sp + 1)) := rfl
@[simp] theorem pull8_cpu (s : State) : (pull8 s).2.cpu = { s.cpu.spent 0 1 with sp := s.cpu.sp + 1 } := by
  simp [pull8, State.setSp, Processor.spent]
@[simp] theorem pull8_mem (s : State) : (pull8 s).2.mem = s.mem := rfl
@[simp] theorem pull8_events (s : State) :
    (pull8 s).2.events =
      s.events ++ [.read (stackAddr (s.cpu.sp + 1)) (s.mem.read (stackAddr (s.cpu.sp + 1)))] := by simp [pull8]

@[simp] theorem pull16_fst (s : State) :
    (pull16 s).1 =
      joinBytes (s.mem.read (stackAddr (s.cpu.sp + 2))) (s.mem.read (stackAddr (s.cpu.sp + 1))) + 1 := rfl
@[simp] theorem pull16_cpu (s : State) : (pull16 s).2.cpu = { s.cpu.spent 0 3 with sp := s.cpu.sp + 2 } := by
  simp [pull16, Processor.spent]
  omega
@[simp] theorem pull16_mem (s : State) : (pull16 s).2.mem = s.mem := rfl
@[simp] theorem pull16_events (s : State) :
    (pull16 s).2.events = s.events ++
      [readEvent s.mem (stackAddr (s.cpu.sp + 1)), readEvent s.mem (stackAddr (s.cpu.sp + 2)), .internal] := by
  simp [pull16, readEvent]

@[simp] theorem push16_cpu (w : Addr) (s : State) :
    (push16 w s).cpu = { s.cpu.spent 0 2 with sp := s.cpu.sp - 2 } := by
  have h : s.cpu.sp - 1 - 1 = s.cpu.sp - 2 := by rw [BitVec.sub_sub]; rfl
  simp only [push16, push8_cpu, h, Processor.spent, Processor.mk.injEq, true_and, and_true]
  simp
  omega
@[simp] theorem push16_mem (w : Addr) (s : State) :
    (push16 w s).mem =
      (s.mem.write (stackAddr s.cpu.sp) (highByte (w - 1))).write (stackAddr (s.cpu.sp - 1)) (lowByte (w - 1)) := by
  simp [push16]
@[simp] theorem push16_events (w : Addr) (s : State) :
    (push16 w s).events = s.events ++ [.write (stackAddr s.cpu.sp) (highByte (w - 1)),
      .write (stackAddr (s.cpu.sp - 1)) (lowByte (w - 1))] := by
  simp [push16]

/-! ### The opcode fetch -/

@[simp] theorem fetchOpcode_cpu (s : State) :
    (fetchOpcode s).cpu = { s.cpu.spent 1 1 with lastOpcode := s.mem.read s.cpu.pc } := rfl
@[simp] theorem fetchOpcode_mem (s : State) : (fetchOpcode s).mem = s.mem := rfl
@[simp] theorem fetchOpcode_events (s : State) :
    (fetchOpcode s).events = [.read s.cpu.pc (s.mem.read s.cpu.pc)] := rfl

/-! ### Flags and handlers -/

@[simp] theorem updateZN_cpu (t : Tag) (s : State) :
    (updateZN t s).cpu = { s.cpu with flags := s.cpu.flags.withZN (s.cpu.reg t) } := rfl
@[simp] theorem updateZN_mem (t : Tag) (s : State) : (updateZN t s).mem = s.mem := rfl
@[simp] theorem updateZN_trace (t : Tag) (s : State) : (updateZN t s).trace = s.trace := rfl
@[simp] theorem updateZN_events (t : Tag) (s : State) : (updateZN t s).events = s.events := rfl

/-- Bit 7 of a byte is set from 0x80 on. -/
theorem getElem_seven (v : Byte) : v[7] = decide (128 ≤ v.toNat) := by
  revert v; decide

@[simp] theorem loadValue_cpu (t : Tag) (v : Byte) (s : State) : (loadValue t v s).cpu = s.cpu.loaded t v := by
  have hz : (v == 0x00#8) = decide (v.toNat = 0) := by
    rw [Bool.eq_iff_iff]; simp [BitVec.toNat_eq]
  cases t <;> simp [loadValue, updateZN, State.setFlags, State.setReg, Flags.withZN, Processor.reg, Processor.loaded,
    hz, getElem_seven]
@[simp] theorem loadValue_mem (t : Tag) (v : Byte) (s : State) : (loadValue t v s).mem = s.mem := by simp [loadValue]
@[simp] theorem loadValue_trace (t : Tag) (v : Byte) (s : State) : (loadValue t v s).trace = s.trace := by
  simp [loadValue]
@[simp] theorem loadValue_events (t : Tag) (v : Byte) (s : State) : (loadValue t v s).events = s.events := by
  simp [loadValue]

/-- A load from an address (R100): one read, the register and its flags. -/
@[simp] theorem loadFrom_cpu (t : Tag) (r : Addr × State) :
    (loadFrom t r).cpu = (r.2.cpu.spent 0 1).loaded t (r.2.mem.read r.1) := by simp [loadFrom]
@[simp] theorem loadFrom_mem (t : Tag) (r : Addr × State) : (loadFrom t r).mem = r.2.mem := by simp [loadFrom]
@[simp] theorem loadFrom_events (t : Tag) (r : Addr × State) :
    (loadFrom t r).events = r.2.events ++ [.read r.1 (r.2.mem.read r.1)] := by simp [loadFrom]

/-- A store (R100): one byte written, no register and no flag. -/
@[simp] theorem storeTo_cpu (t : Tag) (r : Addr × State) : (storeTo t r).cpu = r.2.cpu.spent 0 1 := by simp [storeTo]
@[simp] theorem storeTo_mem (t : Tag) (r : Addr × State) : (storeTo t r).mem = r.2.mem.write r.1 (r.2.cpu.reg t) := rfl
@[simp] theorem storeTo_events (t : Tag) (r : Addr × State) :
    (storeTo t r).events = r.2.events ++ [.write r.1 (r.2.cpu.reg t)] := by simp [storeTo]

/-! ### Jumps and calls -/

@[simp] theorem jumpTo_cpu (r : Addr × State) : (jumpTo r).cpu = { r.2.cpu with pc := r.1 } := rfl
@[simp] theorem jumpTo_mem (r : Addr × State) : (jumpTo r).mem = r.2.mem := rfl
@[simp] theorem jumpTo_events (r : Addr × State) : (jumpTo r).events = r.2.events := rfl

/-- JSR's handler (R112): the address of the last byte of the instruction on the stack, then the target. -/
@[simp] theorem callTo_cpu (r : Addr × State) :
    (callTo r).cpu = { r.2.cpu.spent 0 3 with sp := r.2.cpu.sp - 2, pc := r.1 } := by
  simp [callTo, Processor.spent]
  omega
@[simp] theorem callTo_mem (r : Addr × State) :
    (callTo r).mem = (r.2.mem.write (stackAddr r.2.cpu.sp) (highByte (r.2.cpu.pc - 1))).write
      (stackAddr (r.2.cpu.sp - 1)) (lowByte (r.2.cpu.pc - 1)) := by simp [callTo]
@[simp] theorem callTo_events (r : Addr × State) :
    (callTo r).events = r.2.events ++ [.write (stackAddr r.2.cpu.sp) (highByte (r.2.cpu.pc - 1)),
      .write (stackAddr (r.2.cpu.sp - 1)) (lowByte (r.2.cpu.pc - 1)), .internal] := by simp [callTo]

/-! ### The resolver (R76): it changes only `PC` and the counters -/

@[simp] theorem crossTick_cpu (base a : Addr) (s : State) :
    (crossTick base a s).cpu = s.cpu.spent 0 (cross base a).toNat := by
  unfold crossTick; cases cross base a <;> simp [Processor.spent]
@[simp] theorem crossTick_mem (base a : Addr) (s : State) : (crossTick base a s).mem = s.mem := by
  unfold crossTick; split <;> rfl
@[simp] theorem crossTick_events (base a : Addr) (s : State) :
    (crossTick base a s).events = s.events ++ crossEvents base a := by
  unfold crossTick crossEvents; split <;> simp

end Sys2Proof.Machine
end

