-- ==== Sys2Proof/Laws/Operands.lean ====
section
/-! SUPPORT. One spec lemma per addressing mode (40_sequencer_and_addressing.md R76 to R87): the effective address, and
what the resolver does to processor, memory and bus events. -/

namespace Sys2Proof.Machine

/-! ### ZeroPage -/

@[simp] theorem resolveZeroPage_fst (b : Byte) (s : State) :
    (resolveZeroPage b s).1 = zext16 b := rfl
@[simp] theorem resolveZeroPage_cpu (b : Byte) (s : State) :
    (resolveZeroPage b s).2.cpu = s.cpu.spent 1 1 := by simp [resolveZeroPage]
@[simp] theorem resolveZeroPage_mem (b : Byte) (s : State) : (resolveZeroPage b s).2.mem = s.mem := by simp [resolveZeroPage]
@[simp] theorem resolveZeroPage_events (b : Byte) (s : State) :
    (resolveZeroPage b s).2.events = s.events ++ ([.read s.cpu.pc b]) := by simp [resolveZeroPage]

/-! ### ZeroPageX -/

@[simp] theorem resolveZeroPageX_fst (b : Byte) (s : State) :
    (resolveZeroPageX b s).1 = zext16 (b + s.cpu.x) := rfl
@[simp] theorem resolveZeroPageX_cpu (b : Byte) (s : State) :
    (resolveZeroPageX b s).2.cpu = s.cpu.spent 1 2 := by simp [resolveZeroPageX]
@[simp] theorem resolveZeroPageX_mem (b : Byte) (s : State) : (resolveZeroPageX b s).2.mem = s.mem := by simp [resolveZeroPageX]
@[simp] theorem resolveZeroPageX_events (b : Byte) (s : State) :
    (resolveZeroPageX b s).2.events = s.events ++ ([.read s.cpu.pc b, .internal]) := by simp [resolveZeroPageX]

/-! ### ZeroPageY -/

@[simp] theorem resolveZeroPageY_fst (b : Byte) (s : State) :
    (resolveZeroPageY b s).1 = zext16 (b + s.cpu.y) := rfl
@[simp] theorem resolveZeroPageY_cpu (b : Byte) (s : State) :
    (resolveZeroPageY b s).2.cpu = s.cpu.spent 1 2 := by simp [resolveZeroPageY]
@[simp] theorem resolveZeroPageY_mem (b : Byte) (s : State) : (resolveZeroPageY b s).2.mem = s.mem := by simp [resolveZeroPageY]
@[simp] theorem resolveZeroPageY_events (b : Byte) (s : State) :
    (resolveZeroPageY b s).2.events = s.events ++ ([.read s.cpu.pc b, .internal]) := by simp [resolveZeroPageY]

/-! ### Absolute -/

@[simp] theorem resolveAbsolute_fst (w : Addr) (s : State) :
    (resolveAbsolute w s).1 = w := rfl
@[simp] theorem resolveAbsolute_cpu (w : Addr) (s : State) :
    (resolveAbsolute w s).2.cpu = s.cpu.spent 2 2 := by simp [resolveAbsolute]
@[simp] theorem resolveAbsolute_mem (w : Addr) (s : State) : (resolveAbsolute w s).2.mem = s.mem := by simp [resolveAbsolute]
@[simp] theorem resolveAbsolute_events (w : Addr) (s : State) :
    (resolveAbsolute w s).2.events = s.events ++ (operandEvents s.cpu.pc w) := by simp [resolveAbsolute, operandEvents]

/-! ### AbsoluteX -/

@[simp] theorem resolveAbsoluteX_fst (w : Addr) (s : State) :
    (resolveAbsoluteX w s).1 = w + zext16 s.cpu.x := rfl
@[simp] theorem resolveAbsoluteX_cpu (w : Addr) (s : State) :
    (resolveAbsoluteX w s).2.cpu = s.cpu.spent 2 (2 + (cross w (w + zext16 s.cpu.x)).toNat) := by simp [resolveAbsoluteX]
@[simp] theorem resolveAbsoluteX_mem (w : Addr) (s : State) : (resolveAbsoluteX w s).2.mem = s.mem := by simp [resolveAbsoluteX]
@[simp] theorem resolveAbsoluteX_events (w : Addr) (s : State) :
    (resolveAbsoluteX w s).2.events = s.events ++ (operandEvents s.cpu.pc w ++ crossEvents w (w + zext16 s.cpu.x)) := by simp [resolveAbsoluteX, operandEvents]

/-! ### AbsoluteY -/

@[simp] theorem resolveAbsoluteY_fst (w : Addr) (s : State) :
    (resolveAbsoluteY w s).1 = w + zext16 s.cpu.y := rfl
@[simp] theorem resolveAbsoluteY_cpu (w : Addr) (s : State) :
    (resolveAbsoluteY w s).2.cpu = s.cpu.spent 2 (2 + (cross w (w + zext16 s.cpu.y)).toNat) := by simp [resolveAbsoluteY]
@[simp] theorem resolveAbsoluteY_mem (w : Addr) (s : State) : (resolveAbsoluteY w s).2.mem = s.mem := by simp [resolveAbsoluteY]
@[simp] theorem resolveAbsoluteY_events (w : Addr) (s : State) :
    (resolveAbsoluteY w s).2.events = s.events ++ (operandEvents s.cpu.pc w ++ crossEvents w (w + zext16 s.cpu.y)) := by simp [resolveAbsoluteY, operandEvents]

/-! ### Indirect -/

@[simp] theorem resolveIndirect_fst (w : Addr) (s : State) :
    (resolveIndirect w s).1 = wordAt s.mem w := rfl
@[simp] theorem resolveIndirect_cpu (w : Addr) (s : State) :
    (resolveIndirect w s).2.cpu = s.cpu.spent 2 4 := by simp [resolveIndirect]
@[simp] theorem resolveIndirect_mem (w : Addr) (s : State) : (resolveIndirect w s).2.mem = s.mem := by simp [resolveIndirect]
@[simp] theorem resolveIndirect_events (w : Addr) (s : State) :
    (resolveIndirect w s).2.events = s.events ++ (operandEvents s.cpu.pc w ++ [readEvent s.mem w, readEvent s.mem (w + 1)]) := by simp [resolveIndirect, operandEvents, readEvent]

/-! ### IndirectX -/

@[simp] theorem resolveIndirectX_fst (b : Byte) (s : State) :
    (resolveIndirectX b s).1 = wordAt s.mem (zext16 (b + s.cpu.x)) := rfl
@[simp] theorem resolveIndirectX_cpu (b : Byte) (s : State) :
    (resolveIndirectX b s).2.cpu = s.cpu.spent 1 4 := by simp [resolveIndirectX]
@[simp] theorem resolveIndirectX_mem (b : Byte) (s : State) : (resolveIndirectX b s).2.mem = s.mem := by simp [resolveIndirectX]
@[simp] theorem resolveIndirectX_events (b : Byte) (s : State) :
    (resolveIndirectX b s).2.events = s.events ++ ([.read s.cpu.pc b, .internal, readEvent s.mem (zext16 (b + s.cpu.x)), readEvent s.mem (zext16 (b + s.cpu.x) + 1)]) := by simp [resolveIndirectX, readEvent]

/-! ### IndirectY -/

@[simp] theorem resolveIndirectY_fst (b : Byte) (s : State) :
    (resolveIndirectY b s).1 = wordAt s.mem (zext16 b) + zext16 s.cpu.y := rfl
@[simp] theorem resolveIndirectY_cpu (b : Byte) (s : State) :
    (resolveIndirectY b s).2.cpu = s.cpu.spent 1 (3 + (cross (wordAt s.mem (zext16 b)) (wordAt s.mem (zext16 b) + zext16 s.cpu.y)).toNat) := by simp [resolveIndirectY]
@[simp] theorem resolveIndirectY_mem (b : Byte) (s : State) : (resolveIndirectY b s).2.mem = s.mem := by simp [resolveIndirectY]
@[simp] theorem resolveIndirectY_events (b : Byte) (s : State) :
    (resolveIndirectY b s).2.events = s.events ++ ([.read s.cpu.pc b, readEvent s.mem (zext16 b), readEvent s.mem (zext16 b + 1)] ++ crossEvents (wordAt s.mem (zext16 b)) (wordAt s.mem (zext16 b) + zext16 s.cpu.y)) := by simp [resolveIndirectY, readEvent]

theorem crossEvents_length (base a : Addr) : (crossEvents base a).length = (cross base a).toNat := by
  unfold crossEvents; cases cross base a <;> rfl

end Sys2Proof.Machine
end

