-- ==== Sys2Proof/Laws/Exec.lean ====
section
/-! SUPPORT. The meaning of each instruction in terms of the shared operations, one simp lemma per constructor: a proof
about `exec` rewrites with these and then with the operations' own lemmas. -/

namespace Sys2Proof.Machine

@[simp] theorem exec_ldaImmediate (v : Byte) (s : State) :
    exec (.ldaImmediate v) s = .next (loadValue .a v (takeByte v s)) := rfl
@[simp] theorem exec_ldaZeroPage (b : Byte) (s : State) :
    exec (.ldaZeroPage b) s = .next (loadFrom .a (resolveZeroPage b s)) := rfl
@[simp] theorem exec_ldaZeroPageX (b : Byte) (s : State) :
    exec (.ldaZeroPageX b) s = .next (loadFrom .a (resolveZeroPageX b s)) := rfl
@[simp] theorem exec_ldaAbsolute (w : Addr) (s : State) :
    exec (.ldaAbsolute w) s = .next (loadFrom .a (resolveAbsolute w s)) := rfl
@[simp] theorem exec_ldaAbsoluteX (w : Addr) (s : State) :
    exec (.ldaAbsoluteX w) s = .next (loadFrom .a (resolveAbsoluteX w s)) := rfl
@[simp] theorem exec_ldaAbsoluteY (w : Addr) (s : State) :
    exec (.ldaAbsoluteY w) s = .next (loadFrom .a (resolveAbsoluteY w s)) := rfl
@[simp] theorem exec_ldaIndirectX (b : Byte) (s : State) :
    exec (.ldaIndirectX b) s = .next (loadFrom .a (resolveIndirectX b s)) := rfl
@[simp] theorem exec_ldaIndirectY (b : Byte) (s : State) :
    exec (.ldaIndirectY b) s = .next (loadFrom .a (resolveIndirectY b s)) := rfl
@[simp] theorem exec_ldxImmediate (v : Byte) (s : State) :
    exec (.ldxImmediate v) s = .next (loadValue .x v (takeByte v s)) := rfl
@[simp] theorem exec_ldxZeroPage (b : Byte) (s : State) :
    exec (.ldxZeroPage b) s = .next (loadFrom .x (resolveZeroPage b s)) := rfl
@[simp] theorem exec_ldxZeroPageY (b : Byte) (s : State) :
    exec (.ldxZeroPageY b) s = .next (loadFrom .x (resolveZeroPageY b s)) := rfl
@[simp] theorem exec_ldxAbsolute (w : Addr) (s : State) :
    exec (.ldxAbsolute w) s = .next (loadFrom .x (resolveAbsolute w s)) := rfl
@[simp] theorem exec_ldxAbsoluteY (w : Addr) (s : State) :
    exec (.ldxAbsoluteY w) s = .next (loadFrom .x (resolveAbsoluteY w s)) := rfl
@[simp] theorem exec_ldyImmediate (v : Byte) (s : State) :
    exec (.ldyImmediate v) s = .next (loadValue .y v (takeByte v s)) := rfl
@[simp] theorem exec_ldyZeroPage (b : Byte) (s : State) :
    exec (.ldyZeroPage b) s = .next (loadFrom .y (resolveZeroPage b s)) := rfl
@[simp] theorem exec_ldyZeroPageX (b : Byte) (s : State) :
    exec (.ldyZeroPageX b) s = .next (loadFrom .y (resolveZeroPageX b s)) := rfl
@[simp] theorem exec_ldyAbsolute (w : Addr) (s : State) :
    exec (.ldyAbsolute w) s = .next (loadFrom .y (resolveAbsolute w s)) := rfl
@[simp] theorem exec_ldyAbsoluteX (w : Addr) (s : State) :
    exec (.ldyAbsoluteX w) s = .next (loadFrom .y (resolveAbsoluteX w s)) := rfl
@[simp] theorem exec_staZeroPage (b : Byte) (s : State) :
    exec (.staZeroPage b) s = .next (storeTo .a (resolveZeroPage b s)) := rfl
@[simp] theorem exec_staZeroPageX (b : Byte) (s : State) :
    exec (.staZeroPageX b) s = .next (storeTo .a (resolveZeroPageX b s)) := rfl
@[simp] theorem exec_staAbsolute (w : Addr) (s : State) :
    exec (.staAbsolute w) s = .next (storeTo .a (resolveAbsolute w s)) := rfl
@[simp] theorem exec_staAbsoluteX (w : Addr) (s : State) :
    exec (.staAbsoluteX w) s = .next (storeTo .a (resolveAbsoluteX w s)) := rfl
@[simp] theorem exec_staAbsoluteY (w : Addr) (s : State) :
    exec (.staAbsoluteY w) s = .next (storeTo .a (resolveAbsoluteY w s)) := rfl
@[simp] theorem exec_staIndirectX (b : Byte) (s : State) :
    exec (.staIndirectX b) s = .next (storeTo .a (resolveIndirectX b s)) := rfl
@[simp] theorem exec_staIndirectY (b : Byte) (s : State) :
    exec (.staIndirectY b) s = .next (storeTo .a (resolveIndirectY b s)) := rfl
@[simp] theorem exec_stxZeroPage (b : Byte) (s : State) :
    exec (.stxZeroPage b) s = .next (storeTo .x (resolveZeroPage b s)) := rfl
@[simp] theorem exec_stxZeroPageY (b : Byte) (s : State) :
    exec (.stxZeroPageY b) s = .next (storeTo .x (resolveZeroPageY b s)) := rfl
@[simp] theorem exec_stxAbsolute (w : Addr) (s : State) :
    exec (.stxAbsolute w) s = .next (storeTo .x (resolveAbsolute w s)) := rfl
@[simp] theorem exec_styZeroPage (b : Byte) (s : State) :
    exec (.styZeroPage b) s = .next (storeTo .y (resolveZeroPage b s)) := rfl
@[simp] theorem exec_styZeroPageX (b : Byte) (s : State) :
    exec (.styZeroPageX b) s = .next (storeTo .y (resolveZeroPageX b s)) := rfl
@[simp] theorem exec_styAbsolute (w : Addr) (s : State) :
    exec (.styAbsolute w) s = .next (storeTo .y (resolveAbsolute w s)) := rfl
@[simp] theorem exec_jmpAbsolute (w : Addr) (s : State) :
    exec (.jmpAbsolute w) s = .next (jumpTo (resolveAbsolute w s)) := rfl
@[simp] theorem exec_jmpIndirect (w : Addr) (s : State) :
    exec (.jmpIndirect w) s = .next (jumpTo (resolveIndirect w s)) := rfl
@[simp] theorem exec_jsrAbsolute (w : Addr) (s : State) :
    exec (.jsrAbsolute w) s = .next (callTo (resolveAbsolute w s)) := rfl
@[simp] theorem exec_rts (s : State) :
    exec .rts s = .next (jumpTo (pull16 s)) := rfl
@[simp] theorem exec_pha (s : State) :
    exec .pha s = .next (push8 s.cpu.a s) := rfl
@[simp] theorem exec_php (s : State) :
    exec .php s = .next (push8 (packP s.cpu.flags) s) := rfl
@[simp] theorem exec_pla (s : State) :
    exec .pla s = .next (loadValue .a (pull8 s).1 (pull8 s).2) := rfl
@[simp] theorem exec_plp (s : State) :
    exec .plp s = .next ((pull8 s).2.setFlags (unpackP (pull8 s).1)) := rfl
@[simp] theorem exec_tsx (s : State) :
    exec .tsx s = .next (loadValue .x s.cpu.sp s) := rfl
@[simp] theorem exec_txs (s : State) :
    exec .txs s = .next (s.setSp s.cpu.x) := rfl
@[simp] theorem exec_nop (s : State) :
    exec .nop s = .next (s) := rfl

/-- Every instruction that stores one byte: its one address, the byte there, and `PC` past the operand (`PC` plus one
because a meaning starts after the opcode fetch). -/
theorem exec_of_storedByte (i : Instr) (s : State) (v : Byte) (hv : storedByte i.operation s.cpu = some v) :
    ∃ t ea, exec i s = .next t ∧ storedAddrs i s = [ea] ∧ t.mem = s.mem.write ea v ∧
      t.cpu.pc + 1 = s.cpu.pc + BitVec.ofNat 16 i.mode.length := by
  cases i <;> simp only [Instr.operation, storedByte, Option.some.injEq, reduceCtorEq] at hv <;> subst hv <;>
    exact ⟨_, _, rfl, rfl, by simp [Processor.reg], by simp [Instr.mode, Mode.length, BitVec.add_assoc]⟩

end Sys2Proof.Machine
end

