-- ==== Sys2Proof/Laws/PerInstr.lean ====
section
/-! SUPPORT. What holds of every instruction as syntax, one lemma per constructor. -/

namespace Sys2Proof.Laws.Encoding

/-- The instruction is a row of the opcode table under its own byte and pair (30_encoding.md R53, R56), its pair is
supported, and its encoding has the length its mode fixes (R50). -/
def Statement (i : Instr) : Prop :=
  decodeOpcode i.opcode = some ⟨i.opcode, i.operation, i.mode⟩ ∧ i.wellFormed = true ∧
    (encode i).length = i.mode.length

theorem ldaImmediate (v : Byte) : Statement (.ldaImmediate v) := ⟨rfl, rfl, rfl⟩
theorem ldaZeroPage (b : Byte) : Statement (.ldaZeroPage b) := ⟨rfl, rfl, rfl⟩
theorem ldaZeroPageX (b : Byte) : Statement (.ldaZeroPageX b) := ⟨rfl, rfl, rfl⟩
theorem ldaAbsolute (w : Addr) : Statement (.ldaAbsolute w) := ⟨rfl, rfl, rfl⟩
theorem ldaAbsoluteX (w : Addr) : Statement (.ldaAbsoluteX w) := ⟨rfl, rfl, rfl⟩
theorem ldaAbsoluteY (w : Addr) : Statement (.ldaAbsoluteY w) := ⟨rfl, rfl, rfl⟩
theorem ldaIndirectX (b : Byte) : Statement (.ldaIndirectX b) := ⟨rfl, rfl, rfl⟩
theorem ldaIndirectY (b : Byte) : Statement (.ldaIndirectY b) := ⟨rfl, rfl, rfl⟩
theorem ldxImmediate (v : Byte) : Statement (.ldxImmediate v) := ⟨rfl, rfl, rfl⟩
theorem ldxZeroPage (b : Byte) : Statement (.ldxZeroPage b) := ⟨rfl, rfl, rfl⟩
theorem ldxZeroPageY (b : Byte) : Statement (.ldxZeroPageY b) := ⟨rfl, rfl, rfl⟩
theorem ldxAbsolute (w : Addr) : Statement (.ldxAbsolute w) := ⟨rfl, rfl, rfl⟩
theorem ldxAbsoluteY (w : Addr) : Statement (.ldxAbsoluteY w) := ⟨rfl, rfl, rfl⟩
theorem ldyImmediate (v : Byte) : Statement (.ldyImmediate v) := ⟨rfl, rfl, rfl⟩
theorem ldyZeroPage (b : Byte) : Statement (.ldyZeroPage b) := ⟨rfl, rfl, rfl⟩
theorem ldyZeroPageX (b : Byte) : Statement (.ldyZeroPageX b) := ⟨rfl, rfl, rfl⟩
theorem ldyAbsolute (w : Addr) : Statement (.ldyAbsolute w) := ⟨rfl, rfl, rfl⟩
theorem ldyAbsoluteX (w : Addr) : Statement (.ldyAbsoluteX w) := ⟨rfl, rfl, rfl⟩
theorem staZeroPage (b : Byte) : Statement (.staZeroPage b) := ⟨rfl, rfl, rfl⟩
theorem staZeroPageX (b : Byte) : Statement (.staZeroPageX b) := ⟨rfl, rfl, rfl⟩
theorem staAbsolute (w : Addr) : Statement (.staAbsolute w) := ⟨rfl, rfl, rfl⟩
theorem staAbsoluteX (w : Addr) : Statement (.staAbsoluteX w) := ⟨rfl, rfl, rfl⟩
theorem staAbsoluteY (w : Addr) : Statement (.staAbsoluteY w) := ⟨rfl, rfl, rfl⟩
theorem staIndirectX (b : Byte) : Statement (.staIndirectX b) := ⟨rfl, rfl, rfl⟩
theorem staIndirectY (b : Byte) : Statement (.staIndirectY b) := ⟨rfl, rfl, rfl⟩
theorem stxZeroPage (b : Byte) : Statement (.stxZeroPage b) := ⟨rfl, rfl, rfl⟩
theorem stxZeroPageY (b : Byte) : Statement (.stxZeroPageY b) := ⟨rfl, rfl, rfl⟩
theorem stxAbsolute (w : Addr) : Statement (.stxAbsolute w) := ⟨rfl, rfl, rfl⟩
theorem styZeroPage (b : Byte) : Statement (.styZeroPage b) := ⟨rfl, rfl, rfl⟩
theorem styZeroPageX (b : Byte) : Statement (.styZeroPageX b) := ⟨rfl, rfl, rfl⟩
theorem styAbsolute (w : Addr) : Statement (.styAbsolute w) := ⟨rfl, rfl, rfl⟩
theorem jmpAbsolute (w : Addr) : Statement (.jmpAbsolute w) := ⟨rfl, rfl, rfl⟩
theorem jmpIndirect (w : Addr) : Statement (.jmpIndirect w) := ⟨rfl, rfl, rfl⟩
theorem jsrAbsolute (w : Addr) : Statement (.jsrAbsolute w) := ⟨rfl, rfl, rfl⟩
theorem rts : Statement .rts := ⟨rfl, rfl, rfl⟩
theorem pha : Statement .pha := ⟨rfl, rfl, rfl⟩
theorem php : Statement .php := ⟨rfl, rfl, rfl⟩
theorem pla : Statement .pla := ⟨rfl, rfl, rfl⟩
theorem plp : Statement .plp := ⟨rfl, rfl, rfl⟩
theorem tsx : Statement .tsx := ⟨rfl, rfl, rfl⟩
theorem txs : Statement .txs := ⟨rfl, rfl, rfl⟩
theorem nop : Statement .nop := ⟨rfl, rfl, rfl⟩

end Sys2Proof.Laws.Encoding
end

