-- ==== Sys2Proof/Machine/Listing.lean ====
section
/-! DEFINITION. The assembler notation of an instruction (30_encoding.md R60, R61): the text of a listing, which no step
reads. The notation is the convention the spec takes from general knowledge (G7, D21; log entry 18). -/

namespace Sys2Proof.Machine

/-- The mnemonic: the operation's name (R60). -/
def mnemonicText (op : Operation) : String :=
  match op with
  | .lda => "LDA"
  | .ldx => "LDX"
  | .ldy => "LDY"
  | .sta => "STA"
  | .stx => "STX"
  | .sty => "STY"
  | .jmp => "JMP"
  | .jsr => "JSR"
  | .rts => "RTS"
  | .pha => "PHA"
  | .php => "PHP"
  | .pla => "PLA"
  | .plp => "PLP"
  | .tsx => "TSX"
  | .txs => "TXS"
  | .nop => "NOP"

/-- One hexadecimal digit, capitals as R60 writes them. -/
def hexDigit (n : Nat) : Char := if n < 10 then Char.ofNat (48 + n) else Char.ofNat (55 + n)

/-- Two hexadecimal digits after `$`: a byte, which selects a zero-page form (R60). -/
def hexByte (b : Byte) : List Char := ['$', hexDigit (b.toNat / 16), hexDigit (b.toNat % 16)]

/-- Four hexadecimal digits after `$`: a word, which selects an absolute form (R60). -/
def hexWord (w : Addr) : List Char :=
  ['$', hexDigit (w.toNat / 4096), hexDigit (w.toNat / 256 % 16), hexDigit (w.toNat / 16 % 16), hexDigit (w.toNat % 16)]

/-- The operand's digits: the zero-page or immediate byte, or the word, high byte first. -/
def operandDigits (i : Instr) : List Char :=
  match i.operandBytes with
  | [] => []
  | [b] => hexByte b
  | lo :: hi :: _ => hexWord (joinBytes hi lo)

/-- The operand syntax of a mode around the digits (R60). -/
def operandSyntax (m : Mode) (digits : List Char) : List Char :=
  match m with
  | .implied => []
  | .immediate => ' ' :: '#' :: digits
  | .zeroPage | .absolute => ' ' :: digits
  | .zeroPageX | .absoluteX => ' ' :: digits ++ [',', 'X']
  | .zeroPageY | .absoluteY => ' ' :: digits ++ [',', 'Y']
  | .indirect => ' ' :: '(' :: digits ++ [')']
  | .indirectX => ' ' :: '(' :: digits ++ [',', 'X', ')']
  | .indirectY => ' ' :: '(' :: digits ++ [')', ',', 'Y']

/-- An instruction in the notation of R60. -/
def listing (i : Instr) : List Char :=
  (mnemonicText i.operation).toList ++ operandSyntax i.mode (operandDigits i)

/-- A data byte of a listing, `.byte $nn` (R61): no instruction. -/
def listingByte (b : Byte) : List Char := ".byte ".toList ++ hexByte b

end Sys2Proof.Machine
end

