-- ==== Sys2Proof/Tests/Slice0.lean ====
section
/-! SUPPORT. The model's own tests. Expected values come from the spec: the encoding tables of 30_encoding.md and the
vectors of 95_test_vectors.md, whose names (S3, L1, T1, J1, K1, N1, X1, B1 ...) the theorems carry; and for each statement
with hypotheses, a witness that meets them all. -/

open Sys2Proof Sys2Proof.Machine

namespace Sys2Proof.Tests

/-! ### Helpers -/

/-- The launch state of 95_test_vectors.md: reset with `PC = pc`, these bytes at `pc`, these other bytes in memory. -/
def start (pc : Addr) (code : List Byte) (cells : List (Addr × Byte)) : State :=
  let m := cells.foldl (fun m c => Memory.write m c.1 c.2) (placeBytes pc code [])
  { cpu := Processor.afterReset pc, mem := m, trace := [] }

/-- The launch state with other registers. -/
def withRegs (a x y sp : Byte) (s : State) : State := { s with cpu := { s.cpu with a := a, x := x, y := y, sp := sp } }

/-- The launch state with other flags. -/
def withFlags (f : Flags) (s : State) : State := { s with cpu := { s.cpu with flags := f } }

/-- The state after one step that answers a next state. -/
def after (s : State) : Option State :=
  match step s with
  | .next t => some t
  | .fault _ => none
  | .refused _ => none

/-- What a vector of the spec gives of an end state. -/
structure Seen where
  a      : Byte
  x      : Byte
  y      : Byte
  sp     : Byte
  pc     : Addr
  flags  : Flags
  events : List BusEvent
  bytes  : List Byte
  deriving DecidableEq, Repr

/-- Registers, flags, bus events after one step, and the bytes of memory at the addresses asked for. -/
def seen (s : State) (addrs : List Addr) : Option Seen :=
  (after s).map (fun t => ⟨t.cpu.a, t.cpu.x, t.cpu.y, t.cpu.sp, t.cpu.pc, t.cpu.flags, t.events, addrs.map t.mem.read⟩)

def noFlags : Flags := ⟨false, false, false, false, false, false, false⟩
def onlyZ : Flags := { noFlags with z := true }
def onlyN : Flags := { noFlags with n := true }
def allFlags : Flags := ⟨true, true, true, true, true, true, true⟩

/-! ### Well-formedness: pairs that do not exist are refused (30_encoding.md R56, R57) -/

theorem test_illFormed_store_immediate :
    supportedPair .sta .immediate = false ∧ supportedPair .stx .immediate = false ∧
    supportedPair .sty .immediate = false := by decide
theorem test_illFormed_index_by_itself :
    supportedPair .ldx .zeroPageX = false ∧ supportedPair .ldy .zeroPageY = false ∧
    supportedPair .ldx .absoluteX = false ∧ supportedPair .ldy .absoluteY = false ∧
    supportedPair .stx .zeroPageX = false ∧ supportedPair .sty .zeroPageY = false := by decide
theorem test_illFormed_store_index_absolute_indexed :
    supportedPair .stx .absoluteY = false ∧ supportedPair .sty .absoluteX = false := by decide
theorem test_illFormed_transfer_modes :
    supportedPair .jmp .zeroPage = false ∧ supportedPair .jsr .indirect = false ∧
    supportedPair .rts .absolute = false ∧ supportedPair .lda .indirect = false := by decide
theorem test_illFormed_stack_with_operand :
    supportedPair .pha .immediate = false ∧ supportedPair .php .zeroPage = false ∧
    supportedPair .pla .absolute = false ∧ supportedPair .plp .immediate = false ∧
    supportedPair .tsx .zeroPage = false ∧ supportedPair .txs .immediate = false ∧
    supportedPair .nop .immediate = false := by decide
theorem test_illFormed_load_implied :
    supportedPair .lda .implied = false ∧ supportedPair .ldx .implied = false ∧
    supportedPair .ldy .implied = false := by decide
theorem test_wellFormed_example : (Instr.staIndirectY 0x20#8).wellFormed = true := by decide

/-! ### Decoding: one word per constructor, written from 30_encoding.md R51 and R56 -/

theorem test_decode_lda :
    decodeTableWord 16 0x55A9 = some (.ldaImmediate 0x55#8) ∧
    decodeTableWord 16 0x10A5 = some (.ldaZeroPage 0x10#8) ∧
    decodeTableWord 16 0x80B5 = some (.ldaZeroPageX 0x80#8) ∧
    decodeTableWord 24 0x3000AD = some (.ldaAbsolute 0x3000#16) ∧
    decodeTableWord 24 0x1234BD = some (.ldaAbsoluteX 0x1234#16) ∧
    decodeTableWord 24 0x20F0B9 = some (.ldaAbsoluteY 0x20F0#16) ∧
    decodeTableWord 16 0x40A1 = some (.ldaIndirectX 0x40#8) ∧
    decodeTableWord 16 0x41B1 = some (.ldaIndirectY 0x41#8) := by decide
theorem test_decode_ldx :
    decodeTableWord 16 0xFFA2 = some (.ldxImmediate 0xFF#8) ∧
    decodeTableWord 16 0x01A6 = some (.ldxZeroPage 0x01#8) ∧
    decodeTableWord 16 0xF0B6 = some (.ldxZeroPageY 0xF0#8) ∧
    decodeTableWord 24 0xFF01AE = some (.ldxAbsolute 0xFF01#16) ∧
    decodeTableWord 24 0x4001BE = some (.ldxAbsoluteY 0x4001#16) := by decide
theorem test_decode_ldy :
    decodeTableWord 16 0x80A0 = some (.ldyImmediate 0x80#8) ∧
    decodeTableWord 16 0xFEA4 = some (.ldyZeroPage 0xFE#8) ∧
    decodeTableWord 16 0x01B4 = some (.ldyZeroPageX 0x01#8) ∧
    decodeTableWord 24 0x1234AC = some (.ldyAbsolute 0x1234#16) ∧
    decodeTableWord 24 0xFF0EBC = some (.ldyAbsoluteX 0xFF0E#16) := by decide
theorem test_decode_sta :
    decodeTableWord 16 0x1085 = some (.staZeroPage 0x10#8) ∧
    decodeTableWord 16 0x8095 = some (.staZeroPageX 0x80#8) ∧
    decodeTableWord 24 0x02008D = some (.staAbsolute 0x0200#16) ∧
    decodeTableWord 24 0x30F09D = some (.staAbsoluteX 0x30F0#16) ∧
    decodeTableWord 24 0x30FF99 = some (.staAbsoluteY 0x30FF#16) ∧
    decodeTableWord 16 0x2081 = some (.staIndirectX 0x20#8) ∧
    decodeTableWord 16 0x2191 = some (.staIndirectY 0x21#8) := by decide
theorem test_decode_stx_sty :
    decodeTableWord 16 0x1086 = some (.stxZeroPage 0x10#8) ∧
    decodeTableWord 16 0xFF96 = some (.stxZeroPageY 0xFF#8) ∧
    decodeTableWord 24 0x01008E = some (.stxAbsolute 0x0100#16) ∧
    decodeTableWord 16 0x4284 = some (.styZeroPage 0x42#8) ∧
    decodeTableWord 16 0xF094 = some (.styZeroPageX 0xF0#8) ∧
    decodeTableWord 24 0xFFFE8C = some (.styAbsolute 0xFFFE#16) := by decide
theorem test_decode_jumps_calls :
    decodeTableWord 24 0x80004C = some (.jmpAbsolute 0x8000#16) ∧
    decodeTableWord 24 0x12346C = some (.jmpIndirect 0x1234#16) ∧
    decodeTableWord 24 0x800120 = some (.jsrAbsolute 0x8001#16) ∧
    decodeTableWord 8 0x60 = some .rts := by decide
theorem test_decode_stack_system :
    decodeTableWord 8 0x48 = some .pha ∧
    decodeTableWord 8 0x08 = some .php ∧
    decodeTableWord 8 0x68 = some .pla ∧
    decodeTableWord 8 0x28 = some .plp ∧
    decodeTableWord 8 0xBA = some .tsx ∧
    decodeTableWord 8 0x9A = some .txs ∧
    decodeTableWord 8 0xEA = some .nop := by decide
/-- Bytes of other 6502 instructions (BRK, TAX, RTI) and of none are rejected by name (R58). -/
theorem test_decode_rejects :
    decode [0x00#8, 0x12#8, 0x34#8] = .rejected (.unsupportedOpcode 0x00#8) ∧
    decode [0xAA#8] = .rejected (.unsupportedOpcode 0xAA#8) ∧ decode [0x40#8] = .rejected (.unsupportedOpcode 0x40#8) ∧
    decode [0xAD#8, 0x34#8] = .rejected .truncated ∧ decode [] = .rejected .truncated := by decide

/-! ### Assembler notation: the examples of 30_encoding.md R60, R61 -/

theorem test_listing :
    listing .rts = "RTS".toList ∧ listing (.ldaImmediate 0x55#8) = "LDA #$55".toList ∧
    listing (.ldaZeroPage 0x80#8) = "LDA $80".toList ∧ listing (.ldaZeroPageX 0x80#8) = "LDA $80,X".toList ∧
    listing (.ldxZeroPageY 0x80#8) = "LDX $80,Y".toList ∧ listing (.jsrAbsolute 0x8000#16) = "JSR $8000".toList ∧
    listing (.ldaAbsoluteX 0x1234#16) = "LDA $1234,X".toList ∧
    listing (.ldaAbsoluteY 0x1234#16) = "LDA $1234,Y".toList ∧
    listing (.jmpIndirect 0x1234#16) = "JMP ($1234)".toList ∧
    listing (.ldaIndirectX 0x40#8) = "LDA ($40,X)".toList ∧ listing (.ldaIndirectY 0x40#8) = "LDA ($40),Y".toList ∧
    listingByte 0xFF#8 = ".byte $FF".toList := by decide

/-! ### One step of each instruction: registers A, X, Y, SP, PC, the flags and the bus events -/

theorem test_S5_ldaImmediate_zero :
    seen (withFlags onlyN (withRegs 0x33#8 0x00#8 0x00#8 0xFF#8 (start 0x0200#16 [0xA9#8, 0x00#8] []))) [] =
      some ⟨0x00#8, 0x00#8, 0x00#8, 0xFF#8, 0x0202#16, onlyZ,
        [.read 0x0200#16 0xA9#8, .read 0x0201#16 0x00#8], []⟩ := by
  decide
theorem test_L1_ldaZeroPage :
    seen (start 0x0200#16 [0xA5#8, 0x10#8] [(0x0010#16, 0x80#8)]) [] =
      some ⟨0x80#8, 0x00#8, 0x00#8, 0xFF#8, 0x0202#16, onlyN,
        [.read 0x0200#16 0xA5#8, .read 0x0201#16 0x10#8, .read 0x0010#16 0x80#8], []⟩ := by
  decide
theorem test_S3_ldaZeroPageX_wraps :
    seen (withRegs 0x00#8 0xFF#8 0x00#8 0xFF#8 (start 0x0200#16 [0xB5#8, 0x80#8] [(0x007F#16, 0x42#8), (0x017F#16, 0x99#8)])) [] =
      some ⟨0x42#8, 0xFF#8, 0x00#8, 0xFF#8, 0x0202#16, noFlags,
        [.read 0x0200#16 0xB5#8, .read 0x0201#16 0x80#8, .internal, .read 0x007F#16 0x42#8], []⟩ := by
  decide
theorem test_L2_ldaAbsolute :
    seen (withRegs 0x55#8 0x00#8 0x00#8 0xFF#8 (start 0x0200#16 [0xAD#8, 0x00#8, 0x30#8] [])) [] =
      some ⟨0x00#8, 0x00#8, 0x00#8, 0xFF#8, 0x0203#16, onlyZ,
        [.read 0x0200#16 0xAD#8, .read 0x0201#16 0x00#8, .read 0x0202#16 0x30#8, .read 0x3000#16 0x00#8], []⟩ := by
  decide
theorem test_S4a_ldaAbsoluteX_crossing :
    seen (withRegs 0x00#8 0xFF#8 0x00#8 0xFF#8 (start 0x0200#16 [0xBD#8, 0x34#8, 0x12#8] [(0x1333#16, 0x77#8)])) [] =
      some ⟨0x77#8, 0xFF#8, 0x00#8, 0xFF#8, 0x0203#16, noFlags,
        [.read 0x0200#16 0xBD#8, .read 0x0201#16 0x34#8, .read 0x0202#16 0x12#8, .internal, .read 0x1333#16 0x77#8], []⟩ := by
  decide
theorem test_S4b_ldaAbsoluteX_no_crossing :
    seen (withRegs 0x00#8 0x05#8 0x00#8 0xFF#8 (start 0x0200#16 [0xBD#8, 0x34#8, 0x12#8] [(0x1239#16, 0x66#8)])) [] =
      some ⟨0x66#8, 0x05#8, 0x00#8, 0xFF#8, 0x0203#16, noFlags,
        [.read 0x0200#16 0xBD#8, .read 0x0201#16 0x34#8, .read 0x0202#16 0x12#8, .read 0x1239#16 0x66#8], []⟩ := by
  decide
theorem test_L3_ldaAbsoluteY_crossing :
    seen (withRegs 0x00#8 0x00#8 0x10#8 0xFF#8 (start 0x0200#16 [0xB9#8, 0xF0#8, 0x20#8] [(0x2100#16, 0x7F#8)])) [] =
      some ⟨0x7F#8, 0x00#8, 0x10#8, 0xFF#8, 0x0203#16, noFlags,
        [.read 0x0200#16 0xB9#8, .read 0x0201#16 0xF0#8, .read 0x0202#16 0x20#8, .internal, .read 0x2100#16 0x7F#8], []⟩ := by
  decide
theorem test_L5_ldaIndirectX_pointer_at_FF :
    seen (withRegs 0x00#8 0x01#8 0x00#8 0xFF#8 (start 0x0200#16 [0xA1#8, 0xFE#8] [(0x00FF#16, 0x34#8), (0x0100#16, 0x12#8), (0x0000#16, 0x56#8), (0x1234#16, 0xAB#8), (0x5634#16, 0xCD#8)])) [] =
      some ⟨0xAB#8, 0x01#8, 0x00#8, 0xFF#8, 0x0202#16, onlyN,
        [.read 0x0200#16 0xA1#8, .read 0x0201#16 0xFE#8, .internal, .read 0x00FF#16 0x34#8, .read 0x0100#16 0x12#8, .read 0x1234#16 0xAB#8], []⟩ := by
  decide
theorem test_L7_ldaIndirectY_crossing :
    seen (withRegs 0x00#8 0x00#8 0x01#8 0xFF#8 (start 0x0200#16 [0xB1#8, 0x40#8] [(0x0040#16, 0xFF#8), (0x0041#16, 0x30#8), (0x3100#16, 0xEE#8)])) [] =
      some ⟨0xEE#8, 0x00#8, 0x01#8, 0xFF#8, 0x0202#16, onlyN,
        [.read 0x0200#16 0xB1#8, .read 0x0201#16 0x40#8, .read 0x0040#16 0xFF#8, .read 0x0041#16 0x30#8, .internal, .read 0x3100#16 0xEE#8], []⟩ := by
  decide
theorem test_L8_ldxImmediate :
    seen (withRegs 0x00#8 0x77#8 0x00#8 0xFF#8 (start 0x0200#16 [0xA2#8, 0x00#8] [])) [] =
      some ⟨0x00#8, 0x00#8, 0x00#8, 0xFF#8, 0x0202#16, onlyZ,
        [.read 0x0200#16 0xA2#8, .read 0x0201#16 0x00#8], []⟩ := by
  decide
theorem test_L12_ldxZeroPage :
    seen (start 0x0200#16 [0xA6#8, 0x00#8] [(0x0000#16, 0x7F#8)]) [] =
      some ⟨0x00#8, 0x7F#8, 0x00#8, 0xFF#8, 0x0202#16, noFlags,
        [.read 0x0200#16 0xA6#8, .read 0x0201#16 0x00#8, .read 0x0000#16 0x7F#8], []⟩ := by
  decide
theorem test_L9_ldxZeroPageY_wraps :
    seen (withRegs 0x00#8 0x00#8 0x20#8 0xFF#8 (start 0x0200#16 [0xB6#8, 0xF0#8] [(0x0010#16, 0x81#8)])) [] =
      some ⟨0x00#8, 0x81#8, 0x20#8, 0xFF#8, 0x0202#16, onlyN,
        [.read 0x0200#16 0xB6#8, .read 0x0201#16 0xF0#8, .internal, .read 0x0010#16 0x81#8], []⟩ := by
  decide
theorem test_L10_ldxAbsolute :
    seen (start 0x0200#16 [0xAE#8, 0xFF#8, 0xFF#8] [(0xFFFF#16, 0x01#8)]) [] =
      some ⟨0x00#8, 0x01#8, 0x00#8, 0xFF#8, 0x0203#16, noFlags,
        [.read 0x0200#16 0xAE#8, .read 0x0201#16 0xFF#8, .read 0x0202#16 0xFF#8, .read 0xFFFF#16 0x01#8], []⟩ := by
  decide
theorem test_L11_ldxAbsoluteY_no_crossing :
    seen (withRegs 0x00#8 0x00#8 0xFF#8 0xFF#8 (start 0x0200#16 [0xBE#8, 0x00#8, 0x40#8] [(0x40FF#16, 0xC0#8)])) [] =
      some ⟨0x00#8, 0xC0#8, 0xFF#8, 0xFF#8, 0x0203#16, onlyN,
        [.read 0x0200#16 0xBE#8, .read 0x0201#16 0x00#8, .read 0x0202#16 0x40#8, .read 0x40FF#16 0xC0#8], []⟩ := by
  decide
theorem test_L13_ldyImmediate :
    seen (start 0x0200#16 [0xA0#8, 0x80#8] []) [] =
      some ⟨0x00#8, 0x00#8, 0x80#8, 0xFF#8, 0x0202#16, onlyN,
        [.read 0x0200#16 0xA0#8, .read 0x0201#16 0x80#8], []⟩ := by
  decide
theorem test_L14_ldyZeroPage :
    seen (withRegs 0x00#8 0x00#8 0x01#8 0xFF#8 (start 0x0200#16 [0xA4#8, 0xFF#8] [])) [] =
      some ⟨0x00#8, 0x00#8, 0x00#8, 0xFF#8, 0x0202#16, onlyZ,
        [.read 0x0200#16 0xA4#8, .read 0x0201#16 0xFF#8, .read 0x00FF#16 0x00#8], []⟩ := by
  decide
theorem test_L15_ldyZeroPageX_wraps :
    seen (withRegs 0x00#8 0xFF#8 0x00#8 0xFF#8 (start 0x0200#16 [0xB4#8, 0x01#8] [(0x0000#16, 0x11#8)])) [] =
      some ⟨0x00#8, 0xFF#8, 0x11#8, 0xFF#8, 0x0202#16, noFlags,
        [.read 0x0200#16 0xB4#8, .read 0x0201#16 0x01#8, .internal, .read 0x0000#16 0x11#8], []⟩ := by
  decide
theorem test_L16_ldyAbsolute :
    seen (start 0x0200#16 [0xAC#8, 0x34#8, 0x12#8] [(0x1234#16, 0x99#8)]) [] =
      some ⟨0x00#8, 0x00#8, 0x99#8, 0xFF#8, 0x0203#16, onlyN,
        [.read 0x0200#16 0xAC#8, .read 0x0201#16 0x34#8, .read 0x0202#16 0x12#8, .read 0x1234#16 0x99#8], []⟩ := by
  decide
theorem test_L17_ldyAbsoluteX_wraps_memory :
    seen (withRegs 0x00#8 0x01#8 0x00#8 0xFF#8 (start 0x0200#16 [0xBC#8, 0xFF#8, 0xFF#8] [(0x0000#16, 0x21#8)])) [] =
      some ⟨0x00#8, 0x01#8, 0x21#8, 0xFF#8, 0x0203#16, noFlags,
        [.read 0x0200#16 0xBC#8, .read 0x0201#16 0xFF#8, .read 0x0202#16 0xFF#8, .internal, .read 0x0000#16 0x21#8], []⟩ := by
  decide
theorem test_T1_staZeroPage :
    seen (withFlags onlyZ (withRegs 0xAA#8 0x00#8 0x00#8 0xFF#8 (start 0x0200#16 [0x85#8, 0x10#8] []))) [0x0010#16] =
      some ⟨0xAA#8, 0x00#8, 0x00#8, 0xFF#8, 0x0202#16, onlyZ,
        [.read 0x0200#16 0x85#8, .read 0x0201#16 0x10#8, .write 0x0010#16 0xAA#8], [0xAA#8]⟩ := by
  decide
theorem test_T2_staZeroPageX_wraps :
    seen (withRegs 0x5A#8 0xFF#8 0x00#8 0xFF#8 (start 0x0200#16 [0x95#8, 0x80#8] [])) [0x007F#16, 0x017F#16] =
      some ⟨0x5A#8, 0xFF#8, 0x00#8, 0xFF#8, 0x0202#16, noFlags,
        [.read 0x0200#16 0x95#8, .read 0x0201#16 0x80#8, .internal, .write 0x007F#16 0x5A#8], [0x5A#8, 0x00#8]⟩ := by
  decide
theorem test_S6_staAbsolute_keeps_flags :
    seen (withFlags ⟨true, false, false, false, false, true, true⟩ (start 0x0200#16 [0x8D#8, 0x00#8, 0x30#8] [(0x3000#16, 0x12#8)])) [0x3000#16] =
      some ⟨0x00#8, 0x00#8, 0x00#8, 0xFF#8, 0x0203#16, ⟨true, false, false, false, false, true, true⟩,
        [.read 0x0200#16 0x8D#8, .read 0x0201#16 0x00#8, .read 0x0202#16 0x30#8, .write 0x3000#16 0x00#8], [0x00#8]⟩ := by
  decide
theorem test_T4_staAbsoluteX_crossing :
    seen (withRegs 0x02#8 0x10#8 0x00#8 0xFF#8 (start 0x0200#16 [0x9D#8, 0xF0#8, 0x30#8] [])) [0x3100#16] =
      some ⟨0x02#8, 0x10#8, 0x00#8, 0xFF#8, 0x0203#16, noFlags,
        [.read 0x0200#16 0x9D#8, .read 0x0201#16 0xF0#8, .read 0x0202#16 0x30#8, .internal, .write 0x3100#16 0x02#8], [0x02#8]⟩ := by
  decide
theorem test_T5_staAbsoluteY_crossing :
    seen (withRegs 0x03#8 0x00#8 0x01#8 0xFF#8 (start 0x0200#16 [0x99#8, 0xFF#8, 0x30#8] [])) [0x3100#16] =
      some ⟨0x03#8, 0x00#8, 0x01#8, 0xFF#8, 0x0203#16, noFlags,
        [.read 0x0200#16 0x99#8, .read 0x0201#16 0xFF#8, .read 0x0202#16 0x30#8, .internal, .write 0x3100#16 0x03#8], [0x03#8]⟩ := by
  decide
theorem test_T6_staIndirectX :
    seen (withRegs 0x04#8 0x04#8 0x00#8 0xFF#8 (start 0x0200#16 [0x81#8, 0x20#8] [(0x0025#16, 0x40#8)])) [0x4000#16] =
      some ⟨0x04#8, 0x04#8, 0x00#8, 0xFF#8, 0x0202#16, noFlags,
        [.read 0x0200#16 0x81#8, .read 0x0201#16 0x20#8, .internal, .read 0x0024#16 0x00#8, .read 0x0025#16 0x40#8, .write 0x4000#16 0x04#8], [0x04#8]⟩ := by
  decide
theorem test_T8_staIndirectY_crossing :
    seen (withRegs 0x06#8 0x00#8 0x10#8 0xFF#8 (start 0x0200#16 [0x91#8, 0x20#8] [(0x0020#16, 0xF8#8), (0x0021#16, 0x40#8)])) [0x4108#16] =
      some ⟨0x06#8, 0x00#8, 0x10#8, 0xFF#8, 0x0202#16, noFlags,
        [.read 0x0200#16 0x91#8, .read 0x0201#16 0x20#8, .read 0x0020#16 0xF8#8, .read 0x0021#16 0x40#8, .internal, .write 0x4108#16 0x06#8], [0x06#8]⟩ := by
  decide
theorem test_T9_stxZeroPage :
    seen (withRegs 0x00#8 0x80#8 0x00#8 0xFF#8 (start 0x0200#16 [0x86#8, 0x00#8] [])) [0x0000#16] =
      some ⟨0x00#8, 0x80#8, 0x00#8, 0xFF#8, 0x0202#16, noFlags,
        [.read 0x0200#16 0x86#8, .read 0x0201#16 0x00#8, .write 0x0000#16 0x80#8], [0x80#8]⟩ := by
  decide
theorem test_T10_stxZeroPageY_wraps :
    seen (withRegs 0x00#8 0x11#8 0x02#8 0xFF#8 (start 0x0200#16 [0x96#8, 0xFF#8] [])) [0x0001#16] =
      some ⟨0x00#8, 0x11#8, 0x02#8, 0xFF#8, 0x0202#16, noFlags,
        [.read 0x0200#16 0x96#8, .read 0x0201#16 0xFF#8, .internal, .write 0x0001#16 0x11#8], [0x11#8]⟩ := by
  decide
theorem test_T11_stxAbsolute_into_stack :
    seen (withRegs 0x00#8 0x12#8 0x00#8 0xFF#8 (start 0x0200#16 [0x8E#8, 0x00#8, 0x01#8] [])) [0x0100#16] =
      some ⟨0x00#8, 0x12#8, 0x00#8, 0xFF#8, 0x0203#16, noFlags,
        [.read 0x0200#16 0x8E#8, .read 0x0201#16 0x00#8, .read 0x0202#16 0x01#8, .write 0x0100#16 0x12#8], [0x12#8]⟩ := by
  decide
theorem test_T12_styZeroPage :
    seen (withRegs 0x00#8 0x00#8 0x13#8 0xFF#8 (start 0x0200#16 [0x84#8, 0x42#8] [])) [0x0042#16] =
      some ⟨0x00#8, 0x00#8, 0x13#8, 0xFF#8, 0x0202#16, noFlags,
        [.read 0x0200#16 0x84#8, .read 0x0201#16 0x42#8, .write 0x0042#16 0x13#8], [0x13#8]⟩ := by
  decide
theorem test_T13_styZeroPageX :
    seen (withRegs 0x00#8 0x01#8 0x14#8 0xFF#8 (start 0x0200#16 [0x94#8, 0x42#8] [])) [0x0043#16] =
      some ⟨0x00#8, 0x01#8, 0x14#8, 0xFF#8, 0x0202#16, noFlags,
        [.read 0x0200#16 0x94#8, .read 0x0201#16 0x42#8, .internal, .write 0x0043#16 0x14#8], [0x14#8]⟩ := by
  decide
theorem test_T14_styAbsolute :
    seen (withRegs 0x00#8 0x00#8 0x15#8 0xFF#8 (start 0x0200#16 [0x8C#8, 0xFE#8, 0xFF#8] [])) [0xFFFE#16] =
      some ⟨0x00#8, 0x00#8, 0x15#8, 0xFF#8, 0x0203#16, noFlags,
        [.read 0x0200#16 0x8C#8, .read 0x0201#16 0xFE#8, .read 0x0202#16 0xFF#8, .write 0xFFFE#16 0x15#8], [0x15#8]⟩ := by
  decide
theorem test_J1_jmpAbsolute :
    seen (start 0x0200#16 [0x4C#8, 0x34#8, 0x12#8] []) [] =
      some ⟨0x00#8, 0x00#8, 0x00#8, 0xFF#8, 0x1234#16, noFlags,
        [.read 0x0200#16 0x4C#8, .read 0x0201#16 0x34#8, .read 0x0202#16 0x12#8], []⟩ := by
  decide
theorem test_J4_jmpIndirect_no_page_wrap :
    seen (start 0x0200#16 [0x6C#8, 0xFF#8, 0x12#8] [(0x12FF#16, 0x00#8), (0x1300#16, 0x80#8), (0x1200#16, 0x40#8)]) [] =
      some ⟨0x00#8, 0x00#8, 0x00#8, 0xFF#8, 0x8000#16, noFlags,
        [.read 0x0200#16 0x6C#8, .read 0x0201#16 0xFF#8, .read 0x0202#16 0x12#8, .read 0x12FF#16 0x00#8, .read 0x1300#16 0x80#8], []⟩ := by
  decide
theorem test_J7_jsr_stack_wraps :
    seen (withRegs 0x00#8 0x00#8 0x00#8 0x00#8 (start 0x0200#16 [0x20#8, 0x00#8, 0x80#8] [])) [0x0100#16, 0x01FF#16] =
      some ⟨0x00#8, 0x00#8, 0x00#8, 0xFE#8, 0x8000#16, noFlags,
        [.read 0x0200#16 0x20#8, .read 0x0201#16 0x00#8, .read 0x0202#16 0x80#8, .write 0x0100#16 0x02#8, .write 0x01FF#16 0x02#8, .internal], [0x02#8, 0x02#8]⟩ := by
  decide
theorem test_J8_jsr_top_of_memory :
    seen (start 0xFFFD#16 [0x20#8, 0x00#8, 0x80#8] []) [] =
      some ⟨0x00#8, 0x00#8, 0x00#8, 0xFD#8, 0x8000#16, noFlags,
        [.read 0xFFFD#16 0x20#8, .read 0xFFFE#16 0x00#8, .read 0xFFFF#16 0x80#8, .write 0x01FF#16 0xFF#8, .write 0x01FE#16 0xFF#8, .internal], []⟩ := by
  decide
theorem test_J9_rts :
    seen (withRegs 0x00#8 0x00#8 0x00#8 0xFD#8 (start 0x0200#16 [0x60#8] [(0x01FE#16, 0x02#8), (0x01FF#16, 0xFF#8)])) [] =
      some ⟨0x00#8, 0x00#8, 0x00#8, 0xFF#8, 0xFF03#16, noFlags,
        [.read 0x0200#16 0x60#8, .read 0x01FE#16 0x02#8, .read 0x01FF#16 0xFF#8, .internal], []⟩ := by
  decide
theorem test_J10_rts_stack_wraps :
    seen (withRegs 0x00#8 0x00#8 0x00#8 0xFE#8 (start 0x0200#16 [0x60#8] [(0x01FF#16, 0x33#8), (0x0100#16, 0x44#8)])) [] =
      some ⟨0x00#8, 0x00#8, 0x00#8, 0x00#8, 0x4434#16, noFlags,
        [.read 0x0200#16 0x60#8, .read 0x01FF#16 0x33#8, .read 0x0100#16 0x44#8, .internal], []⟩ := by
  decide
theorem test_K1_pha :
    seen (withFlags onlyZ (withRegs 0x42#8 0x00#8 0x00#8 0xFF#8 (start 0x0200#16 [0x48#8] []))) [0x01FF#16] =
      some ⟨0x42#8, 0x00#8, 0x00#8, 0xFE#8, 0x0201#16, onlyZ,
        [.read 0x0200#16 0x48#8, .write 0x01FF#16 0x42#8], [0x42#8]⟩ := by
  decide
theorem test_K2_pha_wraps :
    seen (withRegs 0x99#8 0x00#8 0x00#8 0x00#8 (start 0x0200#16 [0x48#8] [])) [0x0100#16] =
      some ⟨0x99#8, 0x00#8, 0x00#8, 0xFF#8, 0x0201#16, noFlags,
        [.read 0x0200#16 0x48#8, .write 0x0100#16 0x99#8], [0x99#8]⟩ := by
  decide
theorem test_K5_php_layout :
    seen (withFlags ⟨false, false, false, false, false, true, true⟩ (start 0x0200#16 [0x08#8] [])) [0x01FF#16] =
      some ⟨0x00#8, 0x00#8, 0x00#8, 0xFE#8, 0x0201#16, ⟨false, false, false, false, false, true, true⟩,
        [.read 0x0200#16 0x08#8, .write 0x01FF#16 0x60#8], [0x60#8]⟩ := by
  decide
theorem test_K3_php_all_flags :
    seen (withFlags allFlags (start 0x0200#16 [0x08#8] [])) [0x01FF#16] =
      some ⟨0x00#8, 0x00#8, 0x00#8, 0xFE#8, 0x0201#16, allFlags,
        [.read 0x0200#16 0x08#8, .write 0x01FF#16 0x7F#8], [0x7F#8]⟩ := by
  decide
theorem test_K6_pla :
    seen (withRegs 0x00#8 0x00#8 0x00#8 0xFE#8 (start 0x0200#16 [0x68#8] [(0x01FF#16, 0x80#8)])) [] =
      some ⟨0x80#8, 0x00#8, 0x00#8, 0xFF#8, 0x0201#16, onlyN,
        [.read 0x0200#16 0x68#8, .read 0x01FF#16 0x80#8], []⟩ := by
  decide
theorem test_K8_pla_wraps :
    seen (start 0x0200#16 [0x68#8] [(0x0100#16, 0x7E#8)]) [] =
      some ⟨0x7E#8, 0x00#8, 0x00#8, 0x00#8, 0x0201#16, noFlags,
        [.read 0x0200#16 0x68#8, .read 0x0100#16 0x7E#8], []⟩ := by
  decide
theorem test_S7_plp :
    seen (withFlags ⟨true, false, false, false, false, false, true⟩ (withRegs 0x00#8 0x00#8 0x00#8 0xFE#8 (start 0x0200#16 [0x28#8] [(0x01FF#16, 0x03#8)]))) [] =
      some ⟨0x00#8, 0x00#8, 0x00#8, 0xFF#8, 0x0201#16, ⟨true, true, false, false, false, false, false⟩,
        [.read 0x0200#16 0x28#8, .read 0x01FF#16 0x03#8], []⟩ := by
  decide
theorem test_K10_plp_bit_seven_ignored :
    seen (withFlags ⟨true, true, false, false, false, false, true⟩ (withRegs 0x00#8 0x00#8 0x00#8 0xFE#8 (start 0x0200#16 [0x28#8] [(0x01FF#16, 0x80#8)]))) [] =
      some ⟨0x00#8, 0x00#8, 0x00#8, 0xFF#8, 0x0201#16, noFlags,
        [.read 0x0200#16 0x28#8, .read 0x01FF#16 0x80#8], []⟩ := by
  decide
theorem test_K12_tsx :
    seen (start 0x0200#16 [0xBA#8] []) [] =
      some ⟨0x00#8, 0xFF#8, 0x00#8, 0xFF#8, 0x0201#16, onlyN,
        [.read 0x0200#16 0xBA#8], []⟩ := by
  decide
theorem test_K13_tsx_zero :
    seen (withFlags onlyN (withRegs 0x00#8 0x12#8 0x00#8 0x00#8 (start 0x0200#16 [0xBA#8] []))) [] =
      some ⟨0x00#8, 0x00#8, 0x00#8, 0x00#8, 0x0201#16, onlyZ,
        [.read 0x0200#16 0xBA#8], []⟩ := by
  decide
theorem test_K15_txs_no_flags :
    seen (withFlags onlyN (start 0x0200#16 [0x9A#8] [])) [] =
      some ⟨0x00#8, 0x00#8, 0x00#8, 0x00#8, 0x0201#16, onlyN,
        [.read 0x0200#16 0x9A#8], []⟩ := by
  decide
theorem test_K16_txs :
    seen (withRegs 0x00#8 0x80#8 0x00#8 0xFF#8 (start 0x0200#16 [0x9A#8] [])) [] =
      some ⟨0x00#8, 0x80#8, 0x00#8, 0x80#8, 0x0201#16, noFlags,
        [.read 0x0200#16 0x9A#8], []⟩ := by
  decide
theorem test_N1_nop :
    seen (withFlags ⟨true, false, false, false, false, false, false⟩ (start 0x0200#16 [0xEA#8] [])) [] =
      some ⟨0x00#8, 0x00#8, 0x00#8, 0xFF#8, 0x0201#16, ⟨true, false, false, false, false, false, false⟩,
        [.read 0x0200#16 0xEA#8], []⟩ := by
  decide
theorem test_N2_nop_pc_wraps :
    seen (start 0xFFFF#16 [0xEA#8] []) [] =
      some ⟨0x00#8, 0x00#8, 0x00#8, 0xFF#8, 0x0000#16, noFlags,
        [.read 0xFFFF#16 0xEA#8], []⟩ := by
  decide
theorem test_B4_operand_across_the_wrap :
    seen (start 0xFFFF#16 [0xA9#8, 0x77#8] []) [] =
      some ⟨0x77#8, 0x00#8, 0x00#8, 0xFF#8, 0x0001#16, noFlags,
        [.read 0xFFFF#16 0xA9#8, .read 0x0000#16 0x77#8], []⟩ := by
  decide

/-! ### The decode failure, `execute`, the host's two entry points -/

theorem test_X1_decodeFailure :
    (execute 5 (start 0x0200#16 [0x00#8] [])).result = .decodeFailure 0x00#8 0x0200#16 ∧
    (execute 5 (start 0x0200#16 [0x00#8] [])).final.cpu.pc = 0x0201#16 ∧
    (execute 5 (start 0x0200#16 [0x00#8] [])).final.cpu.remaining = 4 ∧
    (execute 5 (start 0x0200#16 [0x00#8] [])).final.cpu.used = 1 := by decide
theorem test_B2_longest_overrun :
    (execute 1 (start 0x0200#16 [0xA1#8, 0x00#8, 0xEA#8] [])).result = .completed ∧
    (execute 1 (start 0x0200#16 [0xA1#8, 0x00#8, 0xEA#8] [])).final.cpu.remaining = -5 ∧
    (execute 1 (start 0x0200#16 [0xA1#8, 0x00#8, 0xEA#8] [])).final.cpu.used = 6 := by decide
/-- The loop test (R70, D7): with budget 2 the third NOP is not started. -/
theorem test_N3_loop_test :
    (execute 2 (start 0x0200#16 [0xEA#8, 0xEA#8, 0xEA#8] [])).final.cpu.pc = 0x0202#16 := by decide
/-- The observer's views (R75, R154): PC is still the opcode's at the opcode tick; JSR's last tick sees the target. -/
theorem test_observer_views_of_jsr :
    (after (start 0x0200#16 [0x20#8, 0x00#8, 0x80#8] [])).map (fun t => t.trace.map (fun r => (r.view.pc, r.view.sp))) =
      some [(0x0200#16, 0xFF#8), (0x0201#16, 0xFF#8), (0x0201#16, 0xFF#8), (0x0203#16, 0xFF#8), (0x0203#16, 0xFE#8),
        (0x8000#16, 0xFD#8)] := by decide
/-- A bulk load writes 0x00 for an absent value and takes addresses modulo 65536 (R33, R30). -/
theorem test_bulkLoad :
    (bulkLoad [(0x10000, some 0x42#8), (0x0005, none)] (start 0x0005#16 [0x77#8] [])).mem = [(0, 0x42#8)] := by decide
/-- The harness's entry: the word is the very next instruction. -/
theorem test_withFetchWord :
    after (State.reset.withFetchWord 16 0x55A9) = some
      { cpu := { Processor.afterReset 0x0002#16 with a := 0x55#8, remaining := -2, used := 2, lastOpcode := 0xA9#8 }
        mem := [(0, 0xA9#8), (1, 0x55#8)]
        trace := [⟨.read 0x0000#16 0xA9#8, { Processor.afterReset 0x0000#16 with remaining := -1, used := 1 }⟩,
          ⟨.read 0x0001#16 0x55#8,
            { Processor.afterReset 0x0001#16 with remaining := -2, used := 2, lastOpcode := 0xA9#8 }⟩] } := by
  decide

/-! ### Witnesses: states and operands that meet the hypotheses of the statements

The machine of the witnesses: `STA $0203` at 0x0200 with A = 0xEA, so that a NOP follows; RTS at 0x0300. -/

/-- `STA $0203` with the opcode of NOP in A. -/
def storing : State := withRegs 0xEA#8 0x00#8 0x00#8 0xFF#8 (start 0x0200#16 [0x8D#8, 0x03#8, 0x02#8] [])

/-- `JSR $0300` with RTS there. -/
def calling : State := start 0x0200#16 [0x20#8, 0x00#8, 0x03#8] [(0x0300#16, 0x60#8)]

theorem witness_EncodeInvertsDecode : decode [0xA9#8, 0x55#8, 0x01#8] = .instr (.ldaImmediate 0x55#8) [0x01#8] := by
  decide
theorem witness_DecodeFollowsOpcodeTable :
    decodeOpcode 0xA9#8 = some ⟨0xA9#8, .lda, .immediate⟩ ∧ decodeOpcode 0x00#8 = none := by decide
theorem witness_StepRunsDecodedInstruction :
    BytesAt storing.mem storing.cpu.pc (encode (.staAbsolute 0x0203#16)) := by
  exact ⟨by decide, by decide, by decide, trivial⟩
theorem witness_DecodeFailureIsPrecise : decodeOpcode (State.reset.mem.read State.reset.cpu.pc) = none := by decide
theorem witness_WriteByteAndReadWordEffects : (0x0000#16).toNat = ((0xFFFF#16).toNat + 1) % 65536 := by decide
/-- Two different orders of writing. -/
theorem witness_CanonicalMemoriesAreEqualByReads :
    let m := Memory.write (Memory.write [] 0x0001#16 0x05#8) 0xFFFF#16 0x06#8
    let m' := Memory.write (Memory.write [] 0xFFFF#16 0x06#8) 0x0001#16 0x05#8
    m.wf = true ∧ m'.wf = true ∧ (∀ a : Addr, m.read a = m'.read a) ∧ m ≠ [] := by
  refine ⟨by decide, by decide, fun a => ?_, by decide⟩
  have h : Memory.write (Memory.write [] 0x0001#16 0x05#8) 0xFFFF#16 0x06#8 =
      Memory.write (Memory.write [] 0xFFFF#16 0x06#8) 0x0001#16 0x05#8 := by decide
  rw [h]
/-- A step that answers a next state: the premise of StepMovesOneCyclePerTick, BusEventsReplayToMemory and
CountersInfluenceNothing. -/
theorem witness_step_next : (after storing).isSome = true ∧ (after calling).isSome = true := by decide
/-- The two sides of the page-crossing condition at their boundary: low byte and index sum to 255 and to 256. -/
theorem witness_ResolverIndexedModes :
    let s := withRegs 0x00#8 0x01#8 0x02#8 0xFF#8 (start 0x0200#16 [0xFE#8, 0x30#8] [])
    (s.mem.read s.cpu.pc).toNat + s.cpu.x.toNat = 255 ∧ (s.mem.read s.cpu.pc).toNat + s.cpu.y.toNat = 256 := by decide
/-- Each kind of instruction in the frames: with a target, without one, PLP, PHP, with and without stored bytes, writing
SP or not; each answers a next state (`exec` is total). -/
theorem witness_frames :
    (∃ t, exec .tsx storing = .next t) ∧ (∃ t, exec .txs storing = .next t) ∧ (∃ t, exec .plp storing = .next t) ∧
    (∃ t, exec .php storing = .next t) ∧ Instr.tsx.operation.znTarget = some .x ∧
    Instr.txs.operation.znTarget = none ∧ Instr.txs.operation.writesSp = true ∧ Instr.tsx.operation.writesSp = false ∧
    storedAddrs .tsx storing = [] ∧ storedAddrs .php storing = [0x01FF#16] :=
  ⟨⟨_, rfl⟩, ⟨_, rfl⟩, ⟨_, rfl⟩, ⟨_, rfl⟩, rfl, rfl, rfl, rfl, rfl, rfl⟩
/-- The flag clause of PLP: an image in the next stack byte. -/
theorem witness_FlagWritersAndReaders :
    let s := withRegs 0x00#8 0x00#8 0x00#8 0xFE#8 (start 0x0200#16 [0x28#8] [(0x01FF#16, 0x7F#8)])
    s.mem.read (stackAddr (s.cpu.sp + 1)) = packP allFlags := by decide
theorem witness_StackIsARing :
    (List.replicate 255 0x00#8).length = 255 ∧ highByte 0x0200#16 ≠ 0x01#8 ∧ highByte 0x00FF#16 ≠ 0x01#8 :=
  ⟨List.length_replicate, by decide, by decide⟩
theorem witness_PhaPushesAccumulator :
    let s := start 0x0200#16 [0x48#8] []
    s.mem.read s.cpu.pc = 0x48#8 := by decide
theorem witness_NopOnlyFetches :
    let s := start 0xFFFF#16 [0xEA#8] []
    s.mem.read s.cpu.pc = 0xEA#8 := by decide
theorem witness_PcAdvancesByLength_CycleTotals :
    BytesAt storing.mem storing.cpu.pc (encode (.staAbsolute 0x0203#16)) ∧
    (Instr.staAbsolute 0x0203#16).operation.transfers = false :=
  ⟨⟨by decide, by decide, by decide, trivial⟩, rfl⟩
/-- A state with the invariant whose step answers a next state, and one whose step reports the failure. -/
theorem witness_StepKeepsInv :
    Inv storing ∧ (after storing).isSome = true ∧ Inv State.reset ∧
    step State.reset = .fault (.unsupportedOpcode 0x00#8 0x0000#16 (fetchOpcode State.reset)) :=
  ⟨⟨by decide, by decide, by decide, by decide⟩, by decide, ⟨by decide, by decide, by decide, by decide⟩, rfl⟩
theorem witness_SessionKeepsMemoryCanonical : storing.mem.wf = true ∧ storing.mem ≠ [] := by decide
/-- Each clause of StoreIsSeenByNextFetch: a store over the next opcode with 0xEA; a store over the operand of the LDA
immediate that stands next; JSR to either of the two stack bytes it writes. -/
theorem witness_StoreIsSeenByNextFetch_opcode :
    BytesAt storing.mem storing.cpu.pc (encode (.staAbsolute 0x0203#16)) ∧
    storedByte (Instr.staAbsolute 0x0203#16).operation storing.cpu = some 0xEA#8 ∧
    (after storing).map (fun t => t.cpu.pc) = some 0x0203#16 ∧
    storedAddrs (.staAbsolute 0x0203#16) (fetchOpcode storing) = [0x0203#16] :=
  ⟨⟨by decide, by decide, by decide, trivial⟩, by decide, by decide, by decide⟩
theorem witness_StoreIsSeenByNextFetch_operand :
    let s := withRegs 0x00#8 0x07#8 0x00#8 0xFF#8 (start 0x0080#16 [0x86#8, 0x83#8, 0xA9#8, 0x00#8] [])
    BytesAt s.mem s.cpu.pc (encode (.stxZeroPage 0x83#8)) ∧
    storedByte (Instr.stxZeroPage 0x83#8).operation s.cpu = some 0x07#8 ∧
    (after s).map (fun t => (t.cpu.pc, nextOpcode t)) = some (0x0082#16, 0xA9#8) ∧
    storedAddrs (.stxZeroPage 0x83#8) (fetchOpcode s) = [0x0083#16] :=
  ⟨⟨by decide, by decide, trivial⟩, by decide, by decide, by decide⟩
theorem witness_StoreIsSeenByNextFetch_jsr :
    let s := start 0x0200#16 [0x20#8, 0xFF#8, 0x01#8] []
    let s' := start 0x0200#16 [0x20#8, 0xFE#8, 0x01#8] []
    BytesAt s.mem s.cpu.pc (encode (.jsrAbsolute 0x01FF#16)) ∧ 0x01FF#16 = stackAddr s.cpu.sp ∧
    BytesAt s'.mem s'.cpu.pc (encode (.jsrAbsolute 0x01FE#16)) ∧ 0x01FE#16 = stackAddr (s'.cpu.sp - 1) :=
  ⟨⟨by decide, by decide, by decide, trivial⟩, by decide, ⟨by decide, by decide, by decide, trivial⟩, by decide⟩
theorem witness_JsrThenRtsReturns :
    BytesAt calling.mem calling.cpu.pc [0x20#8, lowByte 0x0300#16, highByte 0x0300#16] ∧
    calling.mem.read 0x0300#16 = 0x60#8 ∧ 0x0300#16 ≠ stackAddr calling.cpu.sp ∧
    0x0300#16 ≠ stackAddr (calling.cpu.sp - 1) :=
  ⟨⟨by decide, by decide, by decide, trivial⟩, by decide, by decide, by decide⟩
theorem witness_ExecuteOverrunsAtMostFive : (execute 1 calling).result = .completed := by decide
theorem witness_ExecuteReportsDecodeFailure :
    (execute 3 State.reset).result = .decodeFailure 0x00#8 0x0000#16 := by decide
theorem witness_ExecuteZeroAndOne :
    (after { storing with cpu := { storing.cpu with remaining := 1 } }).isSome = true ∧
    step { State.reset with cpu := { State.reset.cpu with remaining := 1 } } = .fault (.unsupportedOpcode 0x00#8 0x0000#16
      (fetchOpcode { State.reset with cpu := { State.reset.cpu with remaining := 1 } })) := ⟨by decide, rfl⟩
/-- JSR and RTS are two steps and ten cycles. -/
theorem witness_ExactBudgetRunsExactly :
    ∃ t, Runs 2 { calling with cpu := { calling.cpu with remaining := ((10 : Nat) : Int) } } t ∧
      t.cpu.used = calling.cpu.used + 10 := by
  refine ⟨_, ⟨_, rfl, _, rfl, rfl⟩, by decide⟩
theorem witness_BulkLoadWritesEveryEntry :
    let entries : List (Nat × Option Byte) := [(0x10000, some 0x42#8), (0xFFFF, none)]
    (entries.map (fun e => e.1 % 65536)).Nodup ∧ (0x10000, some 0x42#8) ∈ entries ∧
    (∀ e ∈ entries, e.1 % 65536 ≠ (0x0001#16).toNat) := by decide

end Sys2Proof.Tests
end

/-! Who writes and who reads the flags (10_state.md R15): the writers by an inversion lemma per class of instruction, the
readers by comparing a meaning with itself from two states that differ in the flags. -/

namespace Sys2Proof.Machine

/-! ### The flag byte image (R16) -/

/-- `packP` loses no flag. -/
@[simp] theorem unpackP_packP (f : Flags) : unpackP (packP f) = f := by
  obtain ⟨c, z, i, d, b, v, n⟩ := f
  revert c z i d b v n
  decide

/-! ### The writers -/

/-- An instruction with a register to derive Z and N from ends in the load handler on that register (R89), applied to a
state that still holds the flags the meaning began with. -/
theorem exec_eq_loadValue_of_znTarget (i : Instr) (s : State) {r : Tag} (hr : i.operation.znTarget = some r) :
    ∃ v u, exec i s = .next (loadValue r v u) ∧ u.cpu.flags = s.cpu.flags := by
  cases i <;> cases hr
  all_goals exact ⟨_, _, rfl, by simp⟩

/-- Z and N after a caller of the derivation are those of the register it has written; the other five flags stay. -/
theorem exec_flags_of_znTarget {i : Instr} {s t : State} {r : Tag} (ht : exec i s = .next t)
    (hr : i.operation.znTarget = some r) :
    t.cpu.flags =
      { s.cpu.flags with z := decide ((t.cpu.reg r).toNat = 0), n := decide (128 ≤ (t.cpu.reg r).toNat) } := by
  obtain ⟨v, u, hexec, hflags⟩ := exec_eq_loadValue_of_znTarget i s hr
  cases hexec.symm.trans ht
  simp [hflags]

/-- Every other instruction but PLP leaves all seven flags. -/
theorem exec_flags_of_znTarget_none {i : Instr} {s t : State} (ht : exec i s = .next t)
    (hr : i.operation.znTarget = none) (hplp : i.operation ≠ .plp) : t.cpu.flags = s.cpu.flags := by
  cases i <;> cases hr
  case plp => exact absurd rfl hplp
  all_goals cases ht; simp

/-- Only PLP can change C, I, D, B and V. -/
theorem exec_keeps_cidbv {i : Instr} {s t : State} (ht : exec i s = .next t) (hplp : i.operation ≠ .plp) :
    t.cpu.flags.c = s.cpu.flags.c ∧ t.cpu.flags.i = s.cpu.flags.i ∧ t.cpu.flags.d = s.cpu.flags.d ∧
      t.cpu.flags.b = s.cpu.flags.b ∧ t.cpu.flags.v = s.cpu.flags.v := by
  cases hr : i.operation.znTarget with
  | none => simp [exec_flags_of_znTarget_none ht hr hplp]
  | some r => simp [exec_flags_of_znTarget ht hr]

/-! ### The readers -/

/-- `u` is `t` but for the flags. The views in the trace, which show the flags at each tick, are not compared; the bus
events are. -/
def AgreeOffFlags (t u : State) : Prop :=
  (∃ f, u.cpu = { t.cpu with flags := f }) ∧ u.mem = t.mem ∧ u.events = t.events

/-- Two resolved operands with one address, in states that agree but for the flags. -/
def AgreeResolved (r q : Addr × State) : Prop := q.1 = r.1 ∧ AgreeOffFlags r.2 q.2

theorem AgreeOffFlags.loadValue {s u : State} (h : AgreeOffFlags s u) (t : Tag) (v : Byte) :
    AgreeOffFlags (loadValue t v s) (loadValue t v u) := by
  obtain ⟨⟨f, hcpu⟩, hmem, hevents⟩ := h
  refine ⟨⟨(u.cpu.loaded t v).flags, ?_⟩, by simp [hmem], by simp [hevents]⟩
  rw [loadValue_cpu, loadValue_cpu, hcpu]
  cases t <;> rfl

theorem AgreeOffFlags.readByte {s u : State} (h : AgreeOffFlags s u) (a : Addr) :
    (readByte a u).1 = (readByte a s).1 ∧ AgreeOffFlags (readByte a s).2 (readByte a u).2 := by
  obtain ⟨⟨f, hcpu⟩, hmem, hevents⟩ := h
  exact ⟨by simp [hmem], ⟨f, by simp [hcpu, Processor.spent]⟩, by simp [hmem], by simp [hmem, hevents]⟩

theorem AgreeResolved.loadFrom {r q : Addr × State} (h : AgreeResolved r q) (t : Tag) :
    AgreeOffFlags (loadFrom t r) (loadFrom t q) := by
  obtain ⟨haddr, hstate⟩ := h
  obtain ⟨hvalue, hread⟩ := hstate.readByte r.1
  rw [Machine.loadFrom, Machine.loadFrom, haddr, hvalue]
  exact hread.loadValue t _

theorem AgreeResolved.storeTo {r q : Addr × State} (h : AgreeResolved r q) (t : Tag) :
    AgreeOffFlags (storeTo t r) (storeTo t q) := by
  obtain ⟨haddr, ⟨f, hcpu⟩, hmem, hevents⟩ := h
  have hreg : q.2.cpu.reg t = r.2.cpu.reg t := by rw [hcpu]; cases t <;> rfl
  exact ⟨⟨f, by simp [hcpu, Processor.spent]⟩, by simp [haddr, hmem, hreg], by simp [haddr, hevents, hreg]⟩

theorem AgreeResolved.jumpTo {r q : Addr × State} (h : AgreeResolved r q) : AgreeOffFlags (jumpTo r) (jumpTo q) := by
  obtain ⟨haddr, ⟨f, hcpu⟩, hmem, hevents⟩ := h
  exact ⟨⟨f, by simp [haddr, hcpu]⟩, by simp [hmem], by simp [hevents]⟩

theorem AgreeResolved.callTo {r q : Addr × State} (h : AgreeResolved r q) : AgreeOffFlags (callTo r) (callTo q) := by
  obtain ⟨haddr, ⟨f, hcpu⟩, hmem, hevents⟩ := h
  exact ⟨⟨f, by simp [haddr, hcpu, Processor.spent]⟩, by simp [hcpu, hmem], by simp [hcpu, hevents]⟩

/-- No instruction but PHP reads a flag: from a state with other flags it does the same but for the flags it leaves.
PLP is no exception, its flags come from the stack. -/
theorem exec_agreeOffFlags_of_setFlags (i : Instr) (s : State) (f : Flags) (hphp : i.operation ≠ .php) :
    ∃ t u, exec i s = .next t ∧ exec i (s.setFlags f) = .next u ∧ AgreeOffFlags t u := by
  cases i
  case php => exact absurd rfl hphp
  case plp => exact ⟨_, _, rfl, rfl, ⟨unpackP (pull8 s).1, by simp [Processor.spent]⟩, by simp, by simp⟩
  case pha | txs | nop => exact ⟨_, _, rfl, rfl, ⟨f, by simp [Processor.spent]⟩, by simp, by simp⟩
  case ldaImmediate | ldxImmediate | ldyImmediate | pla | tsx =>
    refine ⟨_, _, rfl, rfl, AgreeOffFlags.loadValue ?_ _ _⟩
    exact ⟨⟨f, by simp [Processor.spent]⟩, by simp, by simp⟩
  case' ldaZeroPage | ldaZeroPageX | ldaAbsolute | ldaAbsoluteX | ldaAbsoluteY | ldaIndirectX | ldaIndirectY |
      ldxZeroPage | ldxZeroPageY | ldxAbsolute | ldxAbsoluteY | ldyZeroPage | ldyZeroPageX | ldyAbsolute |
      ldyAbsoluteX =>
    refine ⟨_, _, rfl, rfl, AgreeResolved.loadFrom ?resolved _⟩
  case' staZeroPage | staZeroPageX | staAbsolute | staAbsoluteX | staAbsoluteY | staIndirectX | staIndirectY |
      stxZeroPage | stxZeroPageY | stxAbsolute | styZeroPage | styZeroPageX | styAbsolute =>
    refine ⟨_, _, rfl, rfl, AgreeResolved.storeTo ?resolved _⟩
  case' jmpAbsolute | jmpIndirect | rts => refine ⟨_, _, rfl, rfl, AgreeResolved.jumpTo ?resolved⟩
  case' jsrAbsolute => refine ⟨_, _, rfl, rfl, AgreeResolved.callTo ?resolved⟩
  -- No resolver and no pull looks at the flags.
  all_goals exact ⟨rfl, ⟨f, by simp [Processor.spent]⟩, by simp, by simp⟩

/-! ### The statement -/

/-- Settles O19: the writers class by class, PLP and PHP by their meanings, the readers by the comparison above. -/
theorem flagWritersAndReaders : Obligations.FlagWritersAndReaders := by
  unfold Obligations.FlagWritersAndReaders
  refine ⟨fun i s t ht => ⟨exec_keeps_cidbv ht, fun hplp hr => ?_, fun r hr => ?_⟩, fun s f himage => ?_, fun s => ?_,
    fun i s t f hphp ht => ?_⟩
  · simp [exec_flags_of_znTarget_none ht hr hplp]
  · have hflags := exec_flags_of_znTarget ht hr
    exact ⟨congrArg Flags.z hflags, congrArg Flags.n hflags⟩
  · exact ⟨_, exec_plp s, by rw [State.setFlags_flags, pull8_fst, himage, unpackP_packP]⟩
  · exact ⟨_, exec_php s, by simp, by simp⟩
  · obtain ⟨t', u, ht', hu, ⟨g, hcpu⟩, hmem, hevents⟩ := exec_agreeOffFlags_of_setFlags i s f hphp
    cases ht'.symm.trans ht
    exact ⟨u, hu, by rw [hcpu], hmem, hevents⟩

end Sys2Proof.Machine

/-! The memory write of the host, the byte read and the operand fetches (20_memory.md R32, R35, R38, R39). The views at
the ticks of a fetch are stated in the processor algebra: no byte of `PC` spent, one cycle more at each tick. -/

namespace Sys2Proof.Machine

/-! ### MemWrite by the host (R32) -/

@[simp] theorem hostWrite_cpu (a : Addr) (v : Byte) (s : State) : (hostWrite a v s).cpu = s.cpu := rfl
@[simp] theorem hostWrite_mem (a : Addr) (v : Byte) (s : State) : (hostWrite a v s).mem = s.mem.write a v := rfl
@[simp] theorem hostWrite_trace (a : Addr) (v : Byte) (s : State) : (hostWrite a v s).trace = s.trace := rfl

/-! ### The views at the ticks of a fetch (R38, R39) -/

@[simp] theorem takeByte_trace (v : Byte) (s : State) :
    (takeByte v s).trace = s.trace ++ [⟨.read s.cpu.pc v, s.cpu.spent 0 1⟩] := by simp [takeByte]

@[simp] theorem takeWord_trace (w : Addr) (s : State) :
    (takeWord w s).trace = s.trace ++ [⟨.read s.cpu.pc (lowByte w), s.cpu.spent 0 1⟩,
      ⟨.read (s.cpu.pc + 1) (highByte w), s.cpu.spent 0 2⟩] := by simp [takeWord]

/-! ### The statements -/

/-- Settles O10: read after write for `MemWrite`, one tick that carries the read for `readByte`. -/
theorem memWriteAndReadByteEffects : Obligations.MemWriteAndReadByteEffects := by
  unfold Obligations.MemWriteAndReadByteEffects
  intro a v s
  refine ⟨hostWrite_cpu a v s, hostWrite_trace a v s, fun b => ?_, readByte_fst a s, ?_, ?_, ?_⟩
  · rw [hostWrite_mem, Memory.read_write]
  · rw [readByte_snd, State.tick_mem]
  · rw [readByte_snd, State.tick_cpu, Processor.tick]
  · rw [readByte_snd, State.tick_events]

/-- Settles O12: both fetches are the operand fetch of what stands at `PC`, whose processor and views are known. -/
theorem fetchPrimitivesEffects : Obligations.FetchPrimitivesEffects := by
  unfold Obligations.FetchPrimitivesEffects
  intro s
  rw [fetchByte_eq, fetchWord_eq]
  refine ⟨rfl, takeByte_mem _ s, takeByte_cpu _ s, ?_, joinBytes_toNat _ _, takeWord_mem _ s, takeWord_cpu _ s, ?_⟩
  · simp [Processor.spent]
  · simp [wordAt, Processor.spent]

end Sys2Proof.Machine

/-! The resolver on operands that stand in memory, the flag derivation in arithmetic, and the stack as a ring
(40_sequencer_and_addressing.md R79, R80, R82, R89, R90, R91, R93, R95). -/

namespace Sys2Proof.Machine

/-! ### `resolve` is the decoded instruction's resolver on the operand at `PC` (R79, R80, R82) -/

theorem resolve_zeroPage (s : State) :
    resolve .zeroPage s =
      (.addr (zext16 (s.mem.read s.cpu.pc)), (resolveZeroPage (s.mem.read s.cpu.pc) s).2) := rfl

theorem resolve_zeroPageX (s : State) :
    resolve .zeroPageX s =
      (.addr (zext16 (s.mem.read s.cpu.pc + s.cpu.x)), (resolveZeroPageX (s.mem.read s.cpu.pc) s).2) := rfl

theorem resolve_absolute (s : State) :
    resolve .absolute s = (.addr (wordAt s.mem s.cpu.pc), (resolveAbsolute (wordAt s.mem s.cpu.pc) s).2) := by
  rw [resolve, fetchWord_eq, resolveAbsolute]

/-! ### The flag derivation (R89) -/

/-- Z and N as conditions on the number the register holds. -/
theorem Flags.withZN_eq (f : Flags) (r : Byte) :
    f.withZN r = { f with z := decide (r.toNat = 0), n := decide (128 ≤ r.toNat) } := by
  have hz : (r == 0x00#8) = decide (r.toNat = 0) := by
    rw [Bool.eq_iff_iff]; simp [BitVec.toNat_eq]
  have hn : r.getLsbD 7 = decide (128 ≤ r.toNat) := getElem_seven r
  rw [Flags.withZN, hz, hn]

/-- No byte is both 0x00 and 0x80 or more. -/
theorem Flags.withZN_not_both (f : Flags) (r : Byte) : ((f.withZN r).z && (f.withZN r).n) = false := by
  rw [Flags.withZN_eq, Bool.and_eq_false_iff, decide_eq_false_iff_not, decide_eq_false_iff_not]
  omega

/-! ### Push after push (R91, R95) -/

/-- The stack address as a number (R90). -/
@[simp] theorem stackAddr_toNat (o : Byte) : (stackAddr o).toNat = 0x100 + o.toNat := joinBytes_toNat 0x01#8 o

/-- Every stack address lies in page 0x01 (R90). -/
@[simp] theorem highByte_stackAddr (o : Byte) : highByte (stackAddr o) = 0x01#8 := highByte_joinBytes 0x01#8 o

/-- The bytes of a list pushed in order. -/
def pushAll (vs : List Byte) (s : State) : State := vs.foldl (fun u v => push8 v u) s

@[simp] theorem pushAll_nil (s : State) : pushAll [] s = s := rfl
@[simp] theorem pushAll_cons (v : Byte) (vs : List Byte) (s : State) :
    pushAll (v :: vs) s = pushAll vs (push8 v s) := rfl

theorem pushAll_sp (vs : List Byte) (s : State) : (pushAll vs s).cpu.sp = s.cpu.sp - BitVec.ofNat 8 vs.length := by
  induction vs generalizing s with
  | nil => simp
  | cons v vs ih =>
    rw [pushAll_cons, ih, push8_cpu, List.length_cons]
    bv_omega

theorem pushAll_flags (vs : List Byte) (s : State) : (pushAll vs s).cpu.flags = s.cpu.flags := by
  induction vs generalizing s with
  | nil => rfl
  | cons v vs ih => simp [ih]

/-- A push writes in page 0x01 only. -/
theorem push8_read_of_highByte_ne (v : Byte) (s : State) {a : Addr} (ha : highByte a ≠ 0x01#8) :
    (push8 v s).mem.read a = s.mem.read a := by
  have hne : a ≠ stackAddr s.cpu.sp := fun h => ha (by rw [h, highByte_stackAddr])
  rw [push8_mem, Memory.read_write_other _ v hne]

theorem pushAll_read_of_highByte_ne (vs : List Byte) (s : State) {a : Addr} (ha : highByte a ≠ 0x01#8) :
    (pushAll vs s).mem.read a = s.mem.read a := by
  induction vs generalizing s with
  | nil => rfl
  | cons v vs ih => rw [pushAll_cons, ih, push8_read_of_highByte_ne v s ha]

/-- 256 pushes bring `SP` back: as a byte, 256 is 0. -/
theorem pushAll_sp_of_length_eq_256 {vs : List Byte} (s : State) (hlen : vs.length = 256) :
    (pushAll vs s).cpu.sp = s.cpu.sp := by
  rw [pushAll_sp, hlen]
  exact BitVec.sub_zero s.cpu.sp

/-! ### The statements -/

/-- Settles O15: each mode of the sequencer is the decoded instruction's resolver, whose effects are known. -/
theorem resolverZeroPageAndAbsolute : Obligations.ResolverZeroPageAndAbsolute := by
  unfold Obligations.ResolverZeroPageAndAbsolute
  intro s
  refine ⟨⟨_, _, resolve_zeroPage s, zext16_toNat _, resolveZeroPage_cpu _ s, resolveZeroPage_mem _ s,
      resolveZeroPage_events _ s⟩,
    ⟨_, _, resolve_zeroPageX s, ?_, resolveZeroPageX_cpu _ s, resolveZeroPageX_mem _ s,
      resolveZeroPageX_events _ s⟩,
    ⟨_, _, resolve_absolute s, joinBytes_toNat _ _, resolveAbsolute_cpu _ s, resolveAbsolute_mem _ s, ?_⟩⟩
  · rw [zext16_toNat, BitVec.toNat_add]
  · simp [operandEvents, wordAt, readEvent]

/-- Settles O18: the derivation is arithmetic on the register, and its callers are the instructions with a target. -/
theorem zeroAndNegativeAreDerived : Obligations.ZeroAndNegativeAreDerived := by
  unfold Obligations.ZeroAndNegativeAreDerived
  refine ⟨fun r s => ⟨?_, updateZN_mem r s, updateZN_trace r s, ?_⟩, fun i s t ht =>
    ⟨fun r hr => exec_flags_of_znTarget ht hr, exec_flags_of_znTarget_none ht⟩⟩
  · rw [updateZN_cpu, Flags.withZN_eq]
  · rw [updateZN_cpu, Flags.withZN_not_both]

/-- Settles O21: the operations' own laws, with the byte written found by read after write. -/
theorem pushAndPullOneByte : Obligations.PushAndPullOneByte := by
  unfold Obligations.PushAndPullOneByte
  refine ⟨stackAddr_toNat, fun v s => ⟨?_, fun b => ?_, push8_events v s⟩,
    fun s => ⟨pull8_fst s, ?_, pull8_mem s, pull8_events s⟩⟩
  · simp [Processor.spent]
  · rw [push8_mem, Memory.read_write]
  · simp [Processor.spent]

/-- Settles O23: by induction on the pushes; after 256 of them the next one writes where the first did. -/
theorem stackIsARing : Obligations.StackIsARing := by
  unfold Obligations.StackIsARing
  refine ⟨fun vs s => ⟨pushAll_sp vs s, pushAll_flags vs s, fun a => pushAll_read_of_highByte_ne vs s⟩,
    fun first last vs s hlen => ⟨?_, ?_⟩, fun s => ⟨pull8_fst s, ?_, ?_⟩⟩
  · rw [push8_mem, Memory.read_write_same]
  · change (push8 last (pushAll (first :: vs) s)).mem.read (stackAddr s.cpu.sp) = last
    have hsp : (pushAll (first :: vs) s).cpu.sp = s.cpu.sp := pushAll_sp_of_length_eq_256 s (by simp [hlen])
    rw [push8_mem, hsp, Memory.read_write_same]
  · rw [pull8_cpu]
  · rw [pull8_cpu, Processor.spent_flags]

end Sys2Proof.Machine

/-! PHA (43_stack.md R121), with the step rule for an instruction that is its opcode byte alone. -/

namespace Sys2Proof.Machine

/-! ### A step at an instruction without operand bytes (R72) -/

/-- Where no operand follows, the byte at `PC` alone decides the instruction. -/
theorem nextInstr_of_implied {i : Instr} {s : State} (hmode : i.mode = .implied)
    (hop : s.mem.read s.cpu.pc = i.opcode) :
    nextInstr s = .instr i [s.mem.read (s.cpu.pc + 1), s.mem.read (s.cpu.pc + 2)] := by
  rw [nextInstr, fetchWindow, hop]
  cases i <;> cases hmode
  all_goals rfl

theorem step_of_implied {i : Instr} {s : State} (hmode : i.mode = .implied) (hop : s.mem.read s.cpu.pc = i.opcode) :
    step s = exec i (fetchOpcode s) := by
  rw [step, nextInstr_of_implied hmode hop]

/-! ### The statement -/

/-- The meaning of PHA is one push of `A`. -/
theorem answers_pha (s : State) :
    Answers .pha s { s.cpu.spent 0 1 with sp := s.cpu.sp - 1 } (s.mem.write (stackAddr s.cpu.sp) s.cpu.a)
      [.write (stackAddr s.cpu.sp) s.cpu.a] :=
  ⟨_, exec_pha s, push8_cpu _ s, push8_mem _ s, push8_events _ s⟩

/-- Settles O31: a step at 0x48 is the opcode fetch and then that push, which finds `A` and `SP` as they were. -/
theorem phaPushesAccumulator : Obligations.PhaPushesAccumulator := by
  unfold Obligations.PhaPushesAccumulator
  refine ⟨answers_pha, fun s hop => ?_⟩
  obtain ⟨t, ht, hcpu, hmem, hevents⟩ := answers_pha (fetchOpcode s)
  have hstep : step s = .next t := (step_of_implied (i := .pha) rfl hop).trans ht
  refine ⟨t, hstep, ?_, fun a => ?_, ?_⟩
  · simp [hcpu, hop, Processor.spent, Int.sub_sub]
  · simp [hmem, Memory.read_write]
  · simp [hevents, hop]

end Sys2Proof.Machine

/-! NOP (44_system.md R130): its meaning adds nothing to the opcode fetch, and one row of the opcode table carries it. -/

namespace Sys2Proof.Machine

/-! ### Rows the decoder finds (R53, R55) -/

/-- A row the decoder finds is one of the table, and the byte decoded is that row's own. -/
theorem decodeOpcode_eq_some {b : Byte} {row : Row} (h : decodeOpcode b = some row) :
    row ∈ opcodeTable ∧ row.byte = b :=
  ⟨List.mem_of_find?_eq_some h, by simpa using List.find?_some h⟩

/-- 0xEA is the opcode of the table's NOP row and of no other row (R56). -/
theorem operation_eq_nop_iff_of_mem_opcodeTable :
    ∀ row ∈ opcodeTable, (row.operation = .nop ↔ row.byte = 0xEA#8) := by decide

/-! ### The statement -/

/-- Settles O34: a step at 0xEA is the opcode fetch alone, and a decoded byte is its row's byte. -/
theorem nopOnlyFetches : Obligations.NopOnlyFetches := by
  unfold Obligations.NopOnlyFetches
  refine ⟨exec_nop, fun s hop => ?_, fun b row hrow => ?_⟩
  · have hstep : step s = .next (fetchOpcode s) := (step_of_implied (i := .nop) rfl hop).trans (exec_nop _)
    refine ⟨fetchOpcode s, hstep, ?_, fetchOpcode_mem s, ?_⟩
    · simp [hop, Processor.spent]
    · rw [fetchOpcode_events, hop]
  · obtain ⟨hmem, rfl⟩ := decodeOpcode_eq_some hrow
    exact operation_eq_nop_iff_of_mem_opcodeTable row hmem

end Sys2Proof.Machine

/-! The one exception (60_exceptions.md R140 to R143): every instruction has a meaning that ends in a next state, and the
decoder rejects the bytes at `PC` only where the first of them has no row. -/

namespace Sys2Proof.Machine

/-! ### What a step can do (R72, R140) -/

/-- No instruction faults (R143): the law of each constructor's meaning names the state it answers. -/
theorem exec_eq_next (i : Instr) (s : State) : ∃ t, exec i s = .next t := by
  cases i
  all_goals simp

theorem step_of_nextInstr_instr {s : State} {i : Instr} {rest : List Byte} (h : nextInstr s = .instr i rest) :
    step s = exec i (fetchOpcode s) := by
  rw [step, h]

theorem step_of_nextInstr_rejected {s : State} {why : Reject} (h : nextInstr s = .rejected why) :
    step s = .fault (.unsupportedOpcode (s.mem.read s.cpu.pc) s.cpu.pc (fetchOpcode s)) := by
  simp only [step, h, raiseUnsupportedOpcode, nextOpcode]

/-! ### Which bytes the decoder rejects (R55, R58) -/

/-- The opcode of a row and the two bytes that the longest instruction may need decode to an instruction. -/
theorem decode_of_mem_opcodeTable (b c : Byte) :
    ∀ row ∈ opcodeTable, ∃ i rest, decode [row.byte, b, c] = .instr i rest := by
  intro row hrow
  fin_cases hrow
  all_goals exact ⟨_, _, rfl⟩

/-- Where there is no instruction at `PC`, the byte there has no row: the window is never too short. -/
theorem decodeOpcode_eq_none_of_nextInstr_rejected {s : State} {why : Reject} (h : nextInstr s = .rejected why) :
    decodeOpcode (s.mem.read s.cpu.pc) = none := by
  refine Option.eq_none_iff_forall_ne_some.mpr fun row hrow => ?_
  obtain ⟨hmem, hbyte⟩ := decodeOpcode_eq_some hrow
  obtain ⟨i, rest, hdec⟩ := decode_of_mem_opcodeTable (s.mem.read (s.cpu.pc + 1)) (s.mem.read (s.cpu.pc + 2)) row hmem
  rw [nextInstr, fetchWindow, ← hbyte, hdec] at h
  cases h

/-! ### The statement -/

/-- Settles O9, by the two things the decoder can say of the bytes at `PC`. -/
theorem onlyTheDecodeFailureStops : Obligations.OnlyTheDecodeFailureStops := by
  unfold Obligations.OnlyTheDecodeFailureStops
  refine ⟨exec_eq_next, fun s => ?_⟩
  cases h : nextInstr s with
  | instr i rest =>
    rw [step_of_nextInstr_instr h]
    exact .inl (exec_eq_next i (fetchOpcode s))
  | rejected why =>
    exact .inr ⟨decodeOpcode_eq_none_of_nextInstr_rejected h, _, step_of_nextInstr_rejected h⟩

end Sys2Proof.Machine

/-! Decoder and encoder as inverses of each other, and the opcode table (30_encoding.md sections 1 to 4). What the decoder
can do with a byte list is said once, in `ReadsAs`. -/

namespace Sys2Proof.Machine

/-! ### Every instruction is a row of the table (R53, R56) -/

open Sys2Proof.Laws in
theorem encoding_statement (i : Instr) : Encoding.Statement i := by
  cases i
  exacts [Encoding.ldaImmediate _, Encoding.ldaZeroPage _, Encoding.ldaZeroPageX _, Encoding.ldaAbsolute _,
    Encoding.ldaAbsoluteX _, Encoding.ldaAbsoluteY _, Encoding.ldaIndirectX _, Encoding.ldaIndirectY _,
    Encoding.ldxImmediate _, Encoding.ldxZeroPage _, Encoding.ldxZeroPageY _, Encoding.ldxAbsolute _,
    Encoding.ldxAbsoluteY _, Encoding.ldyImmediate _, Encoding.ldyZeroPage _, Encoding.ldyZeroPageX _,
    Encoding.ldyAbsolute _, Encoding.ldyAbsoluteX _, Encoding.staZeroPage _, Encoding.staZeroPageX _,
    Encoding.staAbsolute _, Encoding.staAbsoluteX _, Encoding.staAbsoluteY _, Encoding.staIndirectX _,
    Encoding.staIndirectY _, Encoding.stxZeroPage _, Encoding.stxZeroPageY _, Encoding.stxAbsolute _,
    Encoding.styZeroPage _, Encoding.styZeroPageX _, Encoding.styAbsolute _, Encoding.jmpAbsolute _,
    Encoding.jmpIndirect _, Encoding.jsrAbsolute _, Encoding.rts, Encoding.pha, Encoding.php, Encoding.pla,
    Encoding.plp, Encoding.tsx, Encoding.txs, Encoding.nop]

theorem decodeOpcode_opcode (i : Instr) : decodeOpcode i.opcode = some ⟨i.opcode, i.operation, i.mode⟩ :=
  (encoding_statement i).1

theorem encode_length (i : Instr) : (encode i).length = i.mode.length := (encoding_statement i).2.2

theorem Mode.length_le_three (m : Mode) : m.length ≤ 3 := by cases m <;> decide

/-! ### Decode of encode (R51, R52) -/

theorem takeOperandWord_low_high (k : Addr → Instr) (w : Addr) (rest : List Byte) :
    takeOperandWord k (lowByte w :: highByte w :: rest) = .instr (k w) rest := by
  rw [takeOperandWord, joinBytes_high_low]

/-- The opcode selects the instruction's own arm of the decoder, which takes the operand bytes back. -/
theorem decode_encode_append (i : Instr) (rest : List Byte) : decode (encode i ++ rest) = .instr i rest := by
  cases i
  case ldaAbsolute w | ldaAbsoluteX w | ldaAbsoluteY w | ldxAbsolute w | ldxAbsoluteY w | ldyAbsolute w |
      ldyAbsoluteX w | staAbsolute w | staAbsoluteX w | staAbsoluteY w | stxAbsolute w | styAbsolute w |
      jmpAbsolute w | jmpIndirect w | jsrAbsolute w =>
    exact takeOperandWord_low_high _ w rest
  all_goals rfl

/-- Settles O2: the pair of every constructor is supported, and its arm of the decoder inverts its encoding. -/
theorem decodeInvertsEncode : Obligations.DecodeInvertsEncode := by
  unfold Obligations.DecodeInvertsEncode
  exact fun i rest => ⟨(encoding_statement i).2.1, decode_encode_append i rest⟩

/-! ### What the decoder can do (R50, R55) -/

/-- The ways in which the decoder reads a list that begins with `op`: one operand byte, an operand word, no operand, or
no row of the table. -/
inductive ReadsAs (op : Byte) (rest : List Byte) : Decoded → Prop
  | byte (k : Byte → Instr) (h : ∀ b, encode (k b) = [op, b]) : ReadsAs op rest (takeOperandByte k rest)
  | word (k : Addr → Instr) (h : ∀ w, encode (k w) = [op, lowByte w, highByte w]) :
      ReadsAs op rest (takeOperandWord k rest)
  | implied (i : Instr) (h : encode i = [op]) : ReadsAs op rest (.instr i rest)
  | noRow (h : decodeOpcode op = none) : ReadsAs op rest (.rejected (.unsupportedOpcode op))

theorem decode_readsAs (op : Byte) (rest : List Byte) : ReadsAs op rest (decode (op :: rest)) := by
  unfold decode
  dsimp only
  split
  case h_43 =>
    refine .noRow (Option.eq_none_iff_forall_ne_some.mpr fun row hrow => ?_)
    obtain ⟨hmem, rfl⟩ := decodeOpcode_eq_some hrow
    fin_cases hmem <;> simp at *
  all_goals
    next hop =>
    obtain rfl := (BitVec.toNat_eq_nat.mp hop).2
    constructor
    intros
    rfl

/-! ### The bytes behind an answer of the decoder -/

theorem takeOperandByte_eq_instr {k : Byte → Instr} {bs rest : List Byte} {i : Instr}
    (h : takeOperandByte k bs = .instr i rest) : ∃ b, bs = b :: rest ∧ i = k b := by
  cases bs with
  | nil => cases h
  | cons b tail => cases h; exact ⟨b, rfl, rfl⟩

theorem takeOperandWord_eq_instr {k : Addr → Instr} {bs rest : List Byte} {i : Instr}
    (h : takeOperandWord k bs = .instr i rest) : ∃ w, bs = lowByte w :: highByte w :: rest ∧ i = k w := by
  obtain _ | ⟨lo, _ | ⟨hi, tail⟩⟩ := bs
  · cases h
  · cases h
  · cases h
    exact ⟨joinBytes hi lo, by simp, rfl⟩

theorem ReadsAs.eq_encode_append {op : Byte} {bs rest : List Byte} {d : Decoded} {i : Instr}
    (hreads : ReadsAs op bs d) (hd : d = .instr i rest) : op :: bs = encode i ++ rest := by
  cases hreads with
  | byte k h =>
    obtain ⟨b, rfl, rfl⟩ := takeOperandByte_eq_instr hd
    rw [h]; rfl
  | word k h =>
    obtain ⟨w, rfl, rfl⟩ := takeOperandWord_eq_instr hd
    rw [h]; rfl
  | implied j h =>
    cases hd
    rw [h]; rfl
  | noRow h => cases hd

/-- Settles O3, by the ways of reading: the bytes taken as operand are those the encoder writes. -/
theorem encodeInvertsDecode : Obligations.EncodeInvertsDecode := by
  unfold Obligations.EncodeInvertsDecode
  intro bs i rest hdec
  cases bs with
  | nil => cases hdec
  | cons op tail => exact (decode_readsAs op tail).eq_encode_append hdec

/-! ### The decoder on the bytes of a fetch window, three or more (R50, R55) -/

/-- Three bytes are never too few: the decoder answers an instruction with the first byte as opcode, or that byte has no
row. -/
theorem ReadsAs.instr_or_noRow {op b1 b2 : Byte} {rest : List Byte} {d : Decoded}
    (hreads : ReadsAs op (b1 :: b2 :: rest) d) :
    (∃ i left, d = .instr i left ∧ i.opcode = op) ∨
      (decodeOpcode op = none ∧ d = .rejected (.unsupportedOpcode op)) := by
  cases hreads with
  | byte k h => exact .inl ⟨_, _, rfl, List.head_eq_of_cons_eq (h b1)⟩
  | word k h => exact .inl ⟨_, _, rfl, List.head_eq_of_cons_eq (h (joinBytes b2 b1))⟩
  | implied j h => exact .inl ⟨_, _, rfl, List.head_eq_of_cons_eq h⟩
  | noRow h => exact .inr ⟨h, rfl⟩

/-- Settles O4: the row of the first byte is the row of the instruction read. -/
theorem decodeFollowsOpcodeTable : Obligations.DecodeFollowsOpcodeTable := by
  unfold Obligations.DecodeFollowsOpcodeTable
  intro op b1 b2 rest
  obtain ⟨i, left, hdec, rfl⟩ | ⟨hnone, hdec⟩ := (decode_readsAs op (b1 :: b2 :: rest)).instr_or_noRow
  · rw [decodeOpcode_opcode]
    refine ⟨fun row hrow => ?_, fun hnone => absurd hnone (Option.some_ne_none _)⟩
    cases hrow
    exact ⟨i, left, hdec, rfl, rfl, rfl, encode_length i⟩
  · rw [hnone]
    exact ⟨fun _ hrow => absurd hrow (Option.some_ne_none _).symm, fun _ => hdec⟩

/-- Settles O1: each word is decoded by evaluation. -/
theorem writtenOutWordsDecode : Obligations.WrittenOutWordsDecode := by
  unfold Obligations.WrittenOutWordsDecode
  decide

/-- The supported pairs are those of the table's rows. -/
theorem supportedPair_eq_any_opcodeTable (op : Operation) (m : Mode) :
    supportedPair op m = opcodeTable.any (fun r => r.operation == op && r.mode == m) := by
  cases op <;> cases m <;> rfl

/-- 214 bytes have no row (R58): each of the 256 is looked up. -/
theorem length_filter_decodeOpcode_none :
    ((List.range 256).filter (fun n => decodeOpcode (BitVec.ofNat 8 n) == none)).length = 214 := by
  rfl

/-- Settles O5: counts and sums by evaluating the table. -/
theorem opcodeTableHasFortyTwoDistinctRows : Obligations.OpcodeTableHasFortyTwoDistinctRows := by
  unfold Obligations.OpcodeTableHasFortyTwoDistinctRows
  exact ⟨rfl, by decide, supportedPair_eq_any_opcodeTable, length_filter_decodeOpcode_none, rfl, rfl, rfl, rfl⟩

end Sys2Proof.Machine

/-! What a step can do (40_sequencer_and_addressing.md R72, 60_exceptions.md R140), and the step as the spec's own
sequencer. -/

namespace Sys2Proof.Machine

/-! ### The bytes at `PC` and the decoder's window (R50) -/

/-- Up to three bytes stand at `PC` exactly when the window that the decoder sees begins with them. -/
theorem bytesAt_iff_prefix_fetchWindow {s : State} {bs : List Byte} (hlen : bs.length ≤ 3) :
    BytesAt s.mem s.cpu.pc bs ↔ bs <+: fetchWindow s := by
  have hpc : s.cpu.pc + 1 + 1 = s.cpu.pc + 2 := BitVec.add_assoc _ 1 1
  obtain _ | ⟨b, _ | ⟨c, _ | ⟨d, _ | ⟨e, tail⟩⟩⟩⟩ := bs
  case cons.cons.cons.cons => simp only [List.length_cons] at hlen; omega
  all_goals simp only [BytesAt, fetchWindow, List.cons_prefix_cons, List.nil_prefix, hpc, eq_comm]

theorem encode_length_le_three (i : Instr) : (encode i).length ≤ 3 :=
  encode_length i ▸ Mode.length_le_three i.mode

theorem nextInstr_of_bytesAt {i : Instr} {s : State} (h : BytesAt s.mem s.cpu.pc (encode i)) :
    ∃ rest, nextInstr s = .instr i rest := by
  obtain ⟨rest, hrest⟩ := (bytesAt_iff_prefix_fetchWindow (encode_length_le_three i)).mp h
  exact ⟨rest, by rw [nextInstr, ← hrest, decode_encode_append]⟩

theorem bytesAt_of_nextInstr {i : Instr} {s : State} {rest : List Byte} (h : nextInstr s = .instr i rest) :
    BytesAt s.mem s.cpu.pc (encode i) :=
  (bytesAt_iff_prefix_fetchWindow (encode_length_le_three i)).mpr
    ⟨rest, ((decode_readsAs _ _).eq_encode_append h).symm⟩

/-! ### The step, by what stands at `PC` (R72, R140) -/

theorem step_of_bytesAt {i : Instr} {s : State} (h : BytesAt s.mem s.cpu.pc (encode i)) :
    step s = exec i (fetchOpcode s) := by
  obtain ⟨rest, hnext⟩ := nextInstr_of_bytesAt h
  exact step_of_nextInstr_instr hnext

/-- Either an instruction stands at `PC` or the byte there has no row. -/
theorem bytesAt_or_noRow (s : State) :
    (∃ i, BytesAt s.mem s.cpu.pc (encode i)) ∨ decodeOpcode (s.mem.read s.cpu.pc) = none := by
  cases h : nextInstr s with
  | instr i rest => exact .inl ⟨i, bytesAt_of_nextInstr h⟩
  | rejected why => exact .inr (decodeOpcode_eq_none_of_nextInstr_rejected h)

theorem step_of_noRow {s : State} (h : decodeOpcode (s.mem.read s.cpu.pc) = none) :
    step s = .fault (.unsupportedOpcode (s.mem.read s.cpu.pc) s.cpu.pc (fetchOpcode s)) := by
  cases hnext : nextInstr s with
  | rejected why => exact step_of_nextInstr_rejected hnext
  | instr i rest =>
    obtain ⟨hop, -⟩ := bytesAt_of_nextInstr hnext
    rw [hop, decodeOpcode_opcode] at h
    cases h

/-- A step answers a next state by the meaning of an instruction that stands at `PC`. -/
theorem step_eq_next {s t : State} (h : step s = .next t) :
    ∃ i, BytesAt s.mem s.cpu.pc (encode i) ∧ exec i (fetchOpcode s) = .next t := by
  obtain ⟨i, hbytes⟩ | hnone := bytesAt_or_noRow s
  · exact ⟨i, hbytes, step_of_bytesAt hbytes ▸ h⟩
  · rw [step_of_noRow hnone] at h
    cases h

/-- A step faults by the byte at `PC` that has no row, and leaves the opcode fetch. -/
theorem step_eq_fault {s t : State} {op : Byte} {addr : Addr}
    (h : step s = .fault (.unsupportedOpcode op addr t)) :
    decodeOpcode op = none ∧ op = s.mem.read s.cpu.pc ∧ addr = s.cpu.pc ∧ t = fetchOpcode s := by
  obtain ⟨i, hbytes⟩ | hnone := bytesAt_or_noRow s
  · obtain ⟨u, hu⟩ := exec_eq_next i (fetchOpcode s)
    rw [step_of_bytesAt hbytes, hu] at h
    cases h
  · rw [step_of_noRow hnone] at h
    cases h
    exact ⟨hnone, rfl, rfl, rfl⟩

/-- After the opcode fetch `PC` is at the operand bytes. -/
theorem bytesAt_operandBytes {i : Instr} {s : State} (h : BytesAt s.mem s.cpu.pc (encode i)) :
    BytesAt (fetchOpcode s).mem (fetchOpcode s).cpu.pc i.operandBytes := h.2

theorem fetchOpcode_cpu_of_bytesAt {i : Instr} {s : State} (h : BytesAt s.mem s.cpu.pc (encode i)) :
    (fetchOpcode s).cpu = { s.cpu.spent 1 1 with lastOpcode := i.opcode } := by
  rw [fetchOpcode_cpu, h.1]

/-- Settles O6: the decoder reads the instruction, and the opcode fetch has its own laws. -/
theorem stepRunsDecodedInstruction : Obligations.StepRunsDecodedInstruction := by
  unfold Obligations.StepRunsDecodedInstruction
  intro i s h
  exact ⟨step_of_bytesAt h, fetchOpcode_cpu_of_bytesAt h, fetchOpcode_mem s, by rw [fetchOpcode_events, h.1]⟩

/-- Settles O8: the state left is the opcode fetch. -/
theorem decodeFailureIsPrecise : Obligations.DecodeFailureIsPrecise := by
  unfold Obligations.DecodeFailureIsPrecise
  exact fun s hnone => ⟨fetchOpcode s, step_of_noRow hnone, fetchOpcode_cpu s, fetchOpcode_mem s, fetchOpcode_events s⟩

/-! ### The remaining modes of `resolve`, on operands that stand in memory (R81, R83 to R87) -/

theorem resolve_zeroPageY (s : State) :
    resolve .zeroPageY s =
      (.addr (zext16 (s.mem.read s.cpu.pc + s.cpu.y)), (resolveZeroPageY (s.mem.read s.cpu.pc) s).2) := rfl

theorem resolve_absoluteX (s : State) :
    resolve .absoluteX s =
      (.addr (wordAt s.mem s.cpu.pc + zext16 s.cpu.x), (resolveAbsoluteX (wordAt s.mem s.cpu.pc) s).2) := by
  simp [resolve, fetchWord_eq, resolveAbsoluteX]

theorem resolve_absoluteY (s : State) :
    resolve .absoluteY s =
      (.addr (wordAt s.mem s.cpu.pc + zext16 s.cpu.y), (resolveAbsoluteY (wordAt s.mem s.cpu.pc) s).2) := by
  simp [resolve, fetchWord_eq, resolveAbsoluteY]

theorem resolve_indirect (s : State) :
    resolve .indirect s =
      (.addr (wordAt s.mem (wordAt s.mem s.cpu.pc)), (resolveIndirect (wordAt s.mem s.cpu.pc) s).2) := by
  simp [resolve, fetchWord_eq, resolveIndirect]

theorem resolve_indirectX (s : State) :
    resolve .indirectX s =
      (.addr (wordAt s.mem (zext16 (s.mem.read s.cpu.pc + s.cpu.x))),
        (resolveIndirectX (s.mem.read s.cpu.pc) s).2) := rfl

theorem resolve_indirectY (s : State) :
    resolve .indirectY s =
      (.addr (wordAt s.mem (zext16 (s.mem.read s.cpu.pc)) + zext16 s.cpu.y),
        (resolveIndirectY (s.mem.read s.cpu.pc) s).2) := rfl

/-! ### The two forms of the step (R72, R73) -/

theorem wordAt_of_bytesAt {m : Memory} {a w : Addr} (h : BytesAt m a [lowByte w, highByte w]) : wordAt m a = w := by
  obtain ⟨hlo, hhi, -⟩ := h
  rw [wordAt, hlo, hhi, joinBytes_high_low]

/-- With the operand bytes at `PC`, the meaning of an instruction is the sequencer's handler of its row, on what the
resolver fetches there. -/
theorem exec_eq_handle {i : Instr} {s : State} (h : BytesAt s.mem s.cpu.pc i.operandBytes) :
    exec i s =
      .next (handle i.operation i.operation.tag (resolve i.mode s).1 (resolve i.mode s).2) := by
  cases i
  case rts | pha | php | pla | plp | tsx | txs | nop => rfl
  case ldaAbsolute w | ldaAbsoluteX w | ldaAbsoluteY w | ldxAbsolute w | ldxAbsoluteY w | ldyAbsolute w |
      ldyAbsoluteX w | staAbsolute w | staAbsoluteX w | staAbsoluteY w | stxAbsolute w | styAbsolute w |
      jmpAbsolute w | jmpIndirect w | jsrAbsolute w =>
    obtain rfl := wordAt_of_bytesAt h
    simp only [Instr.mode, resolve_absolute, resolve_absoluteX, resolve_absoluteY, resolve_indirect]
    rfl
  all_goals
    obtain ⟨rfl, -⟩ := h
    rfl

theorem sequencerStep_of_row {s : State} {row : Row} (h : decodeOpcode (s.mem.read s.cpu.pc) = some row) :
    sequencerStep s = .next (handle row.operation row.operation.tag (resolve row.mode (fetchOpcode s)).1
      (resolve row.mode (fetchOpcode s)).2) := by
  have hfetch : decodeOpcode (fetchByte { s with trace := [] }).1 = some row := h
  simp only [sequencerStep, hfetch]
  rfl

theorem sequencerStep_of_noRow {s : State} (h : decodeOpcode (s.mem.read s.cpu.pc) = none) :
    sequencerStep s = .fault (.unsupportedOpcode (s.mem.read s.cpu.pc) s.cpu.pc (fetchOpcode s)) := by
  have hfetch : decodeOpcode (fetchByte { s with trace := [] }).1 = none := h
  simp only [sequencerStep, hfetch]
  rfl

/-- Settles O7: an instruction at `PC` is its row of the table, and no row means the decode failure in both forms. -/
theorem stepIsTheSequencer : Obligations.StepIsTheSequencer := by
  unfold Obligations.StepIsTheSequencer
  intro s
  obtain ⟨i, hbytes⟩ | hnone := bytesAt_or_noRow s
  · have hrow : decodeOpcode (s.mem.read s.cpu.pc) = some ⟨i.opcode, i.operation, i.mode⟩ :=
      hbytes.1 ▸ decodeOpcode_opcode i
    rw [step_of_bytesAt hbytes, exec_eq_handle (bytesAt_operandBytes hbytes), sequencerStep_of_row hrow]
  · rw [step_of_noRow hnone, sequencerStep_of_noRow hnone]

end Sys2Proof.Machine

/-! A step as a run of the bus: the moves every meaning is made of, and what follows for the counters, the record of
ticks, the bus events and memory (20_memory.md section 2, 40_sequencer_and_addressing.md section 5). -/

namespace Sys2Proof.Machine

/-! ### The moves (R34 to R36, R41) -/

/-- `BusRun n s t`: from `s` to `t` by changes of registers and flags, which spend nothing, and `n` ticks: internal
ticks, reads that return the byte memory holds, and writes. -/
inductive BusRun : Nat → State → State → Prop
  | refl (s : State) : BusRun 0 s s
  | quiet {n : Nat} {s t u : State} (h : BusRun n s t) (hused : u.cpu.used = t.cpu.used)
      (hremaining : u.cpu.remaining = t.cpu.remaining) (hmem : u.mem = t.mem) (htrace : u.trace = t.trace) :
      BusRun n s u
  | internalTick {n : Nat} {s t : State} (h : BusRun n s t) : BusRun (n + 1) s t.internalTick
  | read {n : Nat} {s t : State} {a : Addr} {v : Byte} (h : BusRun n s t) (hv : t.mem.read a = v) :
      BusRun (n + 1) s (t.tick (.read a v))
  | writeByte {n : Nat} {s t : State} (h : BusRun n s t) (a : Addr) (v : Byte) :
      BusRun (n + 1) s (writeByte a v t)

namespace BusRun

variable {n : Nat} {s t : State}

/-! ### The operations as runs -/

theorem setSp (h : BusRun n s t) (v : Byte) : BusRun n s (t.setSp v) := h.quiet rfl rfl rfl rfl

theorem setPc (h : BusRun n s t) (a : Addr) : BusRun n s (t.setPc a) := h.quiet rfl rfl rfl rfl

theorem readByte (h : BusRun n s t) (a : Addr) : BusRun (n + 1) s (readByte a t).2 := h.read rfl

theorem readWord (h : BusRun n s t) (a : Addr) : BusRun (n + 2) s (readWord a t).2 :=
  (h.readByte a).readByte (a + 1)

theorem takeByte {v : Byte} (h : BusRun n s t) (hv : BytesAt t.mem t.cpu.pc [v]) :
    BusRun (n + 1) s (takeByte v t) :=
  (h.read hv.1).setPc _

theorem takeWord {w : Addr} (h : BusRun n s t) (hw : BytesAt t.mem t.cpu.pc [lowByte w, highByte w]) :
    BusRun (n + 2) s (takeWord w t) :=
  ((h.read hw.1).read hw.2.1).setPc _

theorem crossTick (h : BusRun n s t) (base a : Addr) :
    BusRun (n + (cross base a).toNat) s (crossTick base a t) := by
  unfold Machine.crossTick
  cases cross base a with
  | false => exact h
  | true => exact h.internalTick

theorem push8 (h : BusRun n s t) (v : Byte) : BusRun (n + 1) s (push8 v t) := (h.writeByte _ v).setSp _

theorem push16 (h : BusRun n s t) (w : Addr) : BusRun (n + 2) s (push16 w t) := (h.push8 _).push8 _

theorem pull8 (h : BusRun n s t) : BusRun (n + 1) s (pull8 t).2 := (h.readByte _).setSp _

theorem pull16 (h : BusRun n s t) : BusRun (n + 3) s (pull16 t).2 :=
  (((h.readByte _).readByte _).setSp _).internalTick

theorem loadValue (h : BusRun n s t) (tag : Tag) (v : Byte) : BusRun n s (loadValue tag v t) :=
  h.quiet (by simp) (by simp) (by simp) (by simp)

theorem fetchOpcode (s : State) : BusRun 1 { s with trace := [] } (fetchOpcode s) :=
  ((BusRun.refl { s with trace := [] }).readByte s.cpu.pc).quiet rfl rfl rfl rfl

/-! ### The resolver (R79 to R87) -/

section
variable {b : Byte} {w : Addr}

theorem resolveZeroPage (h : BusRun n s t) (hb : BytesAt t.mem t.cpu.pc [b]) :
    BusRun (n + 1) s (resolveZeroPage b t).2 := h.takeByte hb

theorem resolveZeroPageX (h : BusRun n s t) (hb : BytesAt t.mem t.cpu.pc [b]) :
    BusRun (n + 2) s (resolveZeroPageX b t).2 := (h.takeByte hb).internalTick

theorem resolveZeroPageY (h : BusRun n s t) (hb : BytesAt t.mem t.cpu.pc [b]) :
    BusRun (n + 2) s (resolveZeroPageY b t).2 := (h.takeByte hb).internalTick

theorem resolveAbsolute (h : BusRun n s t) (hw : BytesAt t.mem t.cpu.pc [lowByte w, highByte w]) :
    BusRun (n + 2) s (resolveAbsolute w t).2 := h.takeWord hw

theorem resolveAbsoluteX (h : BusRun n s t) (hw : BytesAt t.mem t.cpu.pc [lowByte w, highByte w]) :
    BusRun (n + 2 + (cross w (w + zext16 t.cpu.x)).toNat) s (resolveAbsoluteX w t).2 :=
  (h.takeWord hw).crossTick _ _

theorem resolveAbsoluteY (h : BusRun n s t) (hw : BytesAt t.mem t.cpu.pc [lowByte w, highByte w]) :
    BusRun (n + 2 + (cross w (w + zext16 t.cpu.y)).toNat) s (resolveAbsoluteY w t).2 :=
  (h.takeWord hw).crossTick _ _

theorem resolveIndirect (h : BusRun n s t) (hw : BytesAt t.mem t.cpu.pc [lowByte w, highByte w]) :
    BusRun (n + 4) s (resolveIndirect w t).2 := (h.takeWord hw).readWord _

theorem resolveIndirectX (h : BusRun n s t) (hb : BytesAt t.mem t.cpu.pc [b]) :
    BusRun (n + 4) s (resolveIndirectX b t).2 := (h.takeByte hb).internalTick.readWord _

theorem resolveIndirectY (h : BusRun n s t) (hb : BytesAt t.mem t.cpu.pc [b]) :
    BusRun (n + 3 + (cross (wordAt t.mem (zext16 b)) (wordAt t.mem (zext16 b) + zext16 t.cpu.y)).toNat) s
      (resolveIndirectY b t).2 := ((h.takeByte hb).readWord _).crossTick _ _

end

/-! ### The handlers (R100, R111, R112) -/

variable {r : Addr × State}

theorem loadFrom (h : BusRun n s r.2) (tag : Tag) : BusRun (n + 1) s (loadFrom tag r) :=
  (h.readByte r.1).loadValue tag _

theorem storeTo (h : BusRun n s r.2) (tag : Tag) : BusRun (n + 1) s (storeTo tag r) := h.writeByte _ _

theorem jumpTo (h : BusRun n s r.2) : BusRun n s (jumpTo r) := h.setPc _

theorem callTo (h : BusRun n s r.2) : BusRun (n + 3) s (callTo r) := ((h.push16 _).setPc _).internalTick

end BusRun

/-- With its operand bytes at `PC`, every instruction is a run of the bus, one tick shorter than its cycle total: the
opcode fetch is the step's (R96). -/
theorem exec_busRun {i : Instr} {n : Nat} {s t : State} (hop : BytesAt t.mem t.cpu.pc i.operandBytes)
    (h : BusRun n s t) : ∃ m u, exec i t = .next u ∧ BusRun m s u ∧ m + 1 = n + cycleTotal i t := by
  cases i
  case ldaImmediate | ldxImmediate | ldyImmediate => exact ⟨_, _, rfl, (h.takeByte hop).loadValue _ _, rfl⟩
  case ldaZeroPage | ldxZeroPage | ldyZeroPage => exact ⟨_, _, rfl, (h.resolveZeroPage hop).loadFrom _, rfl⟩
  case ldaZeroPageX | ldyZeroPageX => exact ⟨_, _, rfl, (h.resolveZeroPageX hop).loadFrom _, rfl⟩
  case ldxZeroPageY => exact ⟨_, _, rfl, (h.resolveZeroPageY hop).loadFrom _, rfl⟩
  case ldaAbsolute | ldxAbsolute | ldyAbsolute => exact ⟨_, _, rfl, (h.resolveAbsolute hop).loadFrom _, rfl⟩
  case ldaIndirectX => exact ⟨_, _, rfl, (h.resolveIndirectX hop).loadFrom _, rfl⟩
  case staZeroPage | stxZeroPage | styZeroPage => exact ⟨_, _, rfl, (h.resolveZeroPage hop).storeTo _, rfl⟩
  case staZeroPageX | styZeroPageX => exact ⟨_, _, rfl, (h.resolveZeroPageX hop).storeTo _, rfl⟩
  case stxZeroPageY => exact ⟨_, _, rfl, (h.resolveZeroPageY hop).storeTo _, rfl⟩
  case staAbsolute | stxAbsolute | styAbsolute => exact ⟨_, _, rfl, (h.resolveAbsolute hop).storeTo _, rfl⟩
  case staIndirectX => exact ⟨_, _, rfl, (h.resolveIndirectX hop).storeTo _, rfl⟩
  case jmpAbsolute => exact ⟨_, _, rfl, (h.resolveAbsolute hop).jumpTo, rfl⟩
  case jmpIndirect => exact ⟨_, _, rfl, (h.resolveIndirect hop).jumpTo, rfl⟩
  case jsrAbsolute => exact ⟨_, _, rfl, (h.resolveAbsolute hop).callTo, rfl⟩
  case rts => exact ⟨_, _, rfl, h.pull16.jumpTo, rfl⟩
  case pha | php => exact ⟨_, _, rfl, h.push8 _, rfl⟩
  case pla => exact ⟨_, _, rfl, h.pull8.loadValue _ _, rfl⟩
  case plp => exact ⟨_, _, rfl, h.pull8.quiet rfl rfl rfl rfl, rfl⟩
  case tsx => exact ⟨_, _, rfl, h.loadValue _ _, rfl⟩
  case txs => exact ⟨_, _, rfl, h.setSp _, rfl⟩
  case nop => exact ⟨_, _, rfl, h, rfl⟩
  -- The forms that may cross a page: the table's total and the penalty tick.
  case' ldaAbsoluteX | ldyAbsoluteX => refine ⟨_, _, rfl, (h.resolveAbsoluteX hop).loadFrom _, ?total⟩
  case' ldaAbsoluteY | ldxAbsoluteY => refine ⟨_, _, rfl, (h.resolveAbsoluteY hop).loadFrom _, ?total⟩
  case' ldaIndirectY => refine ⟨_, _, rfl, (h.resolveIndirectY hop).loadFrom _, ?total⟩
  case' staAbsoluteX => refine ⟨_, _, rfl, (h.resolveAbsoluteX hop).storeTo _, ?total⟩
  case' staAbsoluteY => refine ⟨_, _, rfl, (h.resolveAbsoluteY hop).storeTo _, ?total⟩
  case' staIndirectY => refine ⟨_, _, rfl, (h.resolveIndirectY hop).storeTo _, ?total⟩
  all_goals
    simp only [cycleTotal, Instr.operation, Instr.mode, pageCrossed]
    omega

/-- Every total is at least 1 and at most 6 (R96). -/
theorem cycleTotal_bounds (i : Instr) (s : State) : 1 ≤ cycleTotal i s ∧ cycleTotal i s ≤ 6 := by
  have hcross := Bool.toNat_le (pageCrossed i s)
  cases i
  case jmpAbsolute | jmpIndirect => simp [cycleTotal, Instr.operation, Instr.mode]
  all_goals
    simp only [cycleTotal, Instr.operation, Instr.mode]
    omega

/-! ### What a run keeps -/

namespace BusRun

variable {n : Nat} {s t : State}

theorem used_eq (h : BusRun n s t) : t.cpu.used = s.cpu.used + n := by
  induction h with
  | refl => rfl
  | quiet _ hused _ _ _ ih => rw [hused, ih]
  | internalTick _ ih | read _ _ ih | writeByte _ _ _ ih => exact congrArg (· + 1) ih

theorem remaining_eq (h : BusRun n s t) : t.cpu.remaining = s.cpu.remaining - n := by
  induction h with
  | refl => simp
  | quiet _ _ hremaining _ _ ih => rw [hremaining, ih]
  | internalTick _ ih | read _ _ ih | writeByte _ _ _ ih => simp [ih]; omega

/-- The ticks of a run are recorded under the numbers that follow `used`. -/
theorem views_eq (h : BusRun n s t) :
    t.trace.map (fun r => r.view.used) = s.trace.map (fun r => r.view.used) ++ List.range' (s.cpu.used + 1) n := by
  induction h with
  | refl => simp
  | quiet _ _ _ _ htrace ih => rw [htrace, ih]
  | internalTick h ih | read h _ ih | writeByte h _ _ ih =>
    simp [ih, h.used_eq, List.range'_concat, Nat.add_right_comm]

theorem trace_length (h : BusRun n s t) : t.trace.length = s.trace.length + n := by
  simpa using congrArg List.length h.views_eq

theorem mem_wf (h : BusRun n s t) (hwf : s.mem.wf = true) : t.mem.wf = true := by
  induction h with
  | refl => exact hwf
  | quiet _ _ _ hmem _ ih => rw [hmem]; exact ih hwf
  | internalTick _ ih | read _ _ ih => exact ih hwf
  | writeByte _ a v ih => exact Memory.write_wf a v (ih hwf)

end BusRun

theorem replay_append (m : Memory) (es fs : List BusEvent) :
    replay m (es ++ fs) = (replay m es).bind (fun m' => replay m' fs) := by
  induction es generalizing m with
  | nil => rfl
  | cons e es ih =>
    cases e with
    | read a v =>
      simp only [List.cons_append, replay]
      split
      · exact ih m
      · rfl
    | write a v => exact ih (m.write a v)
    | internal => exact ih m

/-- One more event after a replay that succeeded. -/
theorem replay_append_singleton {m m' : Memory} {es : List BusEvent} (e : BusEvent) (h : replay m es = some m') :
    replay m (es ++ [e]) = replay m' [e] := by
  rw [replay_append, h]; rfl

/-- A run's bus events replay on the memory it began with (R47). -/
theorem BusRun.replay_events {n : Nat} {s t : State} {m : Memory} (h : BusRun n s t)
    (hs : replay m s.events = some s.mem) : replay m t.events = some t.mem := by
  induction h with
  | refl => exact hs
  | quiet _ _ _ hmem htrace ih => rw [State.events, htrace, hmem]; exact ih hs
  | internalTick _ ih => rw [State.internalTick_events, replay_append_singleton _ (ih hs)]; rfl
  | read _ hv ih => rw [State.tick_events, replay_append_singleton _ (ih hs)]; simp [replay, hv]
  | writeByte _ a v ih => rw [writeByte_events, replay_append_singleton _ (ih hs)]; rfl

/-- A run of at most six ticks that began with an empty record leaves the invariant. -/
theorem BusRun.inv {n : Nat} {s t : State} (h : BusRun n { s with trace := [] } t) (hn : n ≤ 6)
    (hwf : s.mem.wf = true) : Inv t := by
  have hlength : t.trace.length = n := by simpa using h.trace_length
  have hused : t.cpu.used = s.cpu.used + n := h.used_eq
  have hbase : t.cpu.used + 1 - n = s.cpu.used + 1 := by omega
  refine ⟨h.mem_wf hwf, hlength ▸ hn, by omega, ?_⟩
  rw [h.views_eq, hlength, hbase]
  simp [List.range'_eq_map_range, Nat.add_comm]

/-! ### The step as a run -/

theorem step_busRun {i : Instr} {s : State} (h : BytesAt s.mem s.cpu.pc (encode i)) :
    ∃ t, step s = .next t ∧ BusRun (cycleTotal i (fetchOpcode s)) { s with trace := [] } t := by
  obtain ⟨m, t, ht, hrun, htotal⟩ := exec_busRun (bytesAt_operandBytes h) (BusRun.fetchOpcode s)
  obtain rfl : m = cycleTotal i (fetchOpcode s) := by omega
  exact ⟨t, (step_of_bytesAt h).trans ht, hrun⟩

theorem busRun_of_step_eq_next {s t : State} (h : step s = .next t) :
    ∃ n, 1 ≤ n ∧ n ≤ 6 ∧ BusRun n { s with trace := [] } t := by
  obtain ⟨i, hbytes, -⟩ := step_eq_next h
  obtain ⟨u, hu, hrun⟩ := step_busRun hbytes
  cases hu.symm.trans h
  obtain ⟨hpos, hle⟩ := cycleTotal_bounds i (fetchOpcode s)
  exact ⟨_, hpos, hle, hrun⟩

/-! ### The statements -/

/-- Settles O40: a step is a run of one to six ticks from an empty record, and a decode failure a run of one. -/
theorem stepKeepsInv : Obligations.StepKeepsInv := by
  unfold Obligations.StepKeepsInv
  rintro s ⟨hwf, -, -⟩
  refine ⟨fun t ht => ?_, fun op addr t ht => ?_⟩
  · obtain ⟨n, -, hn, hrun⟩ := busRun_of_step_eq_next ht
    exact hrun.inv hn hwf
  · obtain ⟨-, -, -, rfl⟩ := step_eq_fault ht
    exact (BusRun.fetchOpcode s).inv (by decide) hwf

/-- Settles O41: no tick has happened and no byte is listed. -/
theorem invHoldsAtReset : Obligations.InvHoldsAtReset := by
  unfold Obligations.InvHoldsAtReset
  exact ⟨State.reset_wf, Nat.zero_le 6, Nat.zero_le 0, rfl⟩

/-- A step that answers a next state moves as many cycles as it records ticks, one to six of them. -/
theorem step_counters {s t : State} (h : step s = .next t) :
    t.cpu.used = s.cpu.used + t.trace.length ∧ t.cpu.remaining = s.cpu.remaining - t.trace.length ∧
      1 ≤ t.trace.length ∧ t.trace.length ≤ 6 := by
  obtain ⟨n, hpos, hle, hrun⟩ := busRun_of_step_eq_next h
  obtain rfl : t.trace.length = n := by simpa using hrun.trace_length
  exact ⟨hrun.used_eq, hrun.remaining_eq, hpos, hle⟩

/-- Settles O14: the run's ticks are its record and the move of both counters. -/
theorem stepMovesOneCyclePerTick : Obligations.StepMovesOneCyclePerTick := by
  unfold Obligations.StepMovesOneCyclePerTick
  intro s t ht
  obtain ⟨hused, hremaining, hpos, hle⟩ := step_counters ht
  exact ⟨by omega, hused, hpos, hle⟩

/-- Settles O38: the ticks of the run are the table's total. -/
theorem cycleTotals : Obligations.CycleTotals := by
  unfold Obligations.CycleTotals
  intro i s hbytes
  obtain ⟨t, ht, hrun⟩ := step_busRun hbytes
  exact ⟨t, ht, hrun.used_eq, hrun.remaining_eq, cycleTotal_bounds i (fetchOpcode s)⟩

/-- Settles O39: a step is a run from an empty record, which replays to the memory it began with. -/
theorem busEventsReplayToMemory : Obligations.BusEventsReplayToMemory := by
  unfold Obligations.BusEventsReplayToMemory
  intro s t ht
  obtain ⟨n, -, -, hrun⟩ := busRun_of_step_eq_next ht
  exact hrun.replay_events rfl

end Sys2Proof.Machine

/-! The canonical form of memory (log entry 2), the host's calls and the loop of `execute` (20_memory.md section 1,
40_sequencer_and_addressing.md section 1, 60_exceptions.md section 5). -/

namespace Sys2Proof.Machine

/-! ### Equal reads, equal canonical memories -/

theorem Memory.wfFrom_cons_iff {k lo : Nat} {v : Byte} {rest : Memory} :
    Memory.wfFrom ((k, v) :: rest) lo = true ↔
      lo ≤ k ∧ k < 65536 ∧ v ≠ Config.initByte ∧ rest.wfFrom (k + 1) = true := by
  simp [Memory.wfFrom, and_assoc]

theorem Memory.lookup_of_lt {m : Memory} {lo a : Nat} (h : m.wfFrom lo = true) (ha : a < lo) :
    m.lookup a = Config.initByte := by
  induction m generalizing lo with
  | nil => rfl
  | cons c rest ih =>
    obtain ⟨k, v⟩ := c
    obtain ⟨hlo, -, -, hrest⟩ := Memory.wfFrom_cons_iff.mp h
    rw [Memory.lookup, if_neg (by omega), ih hrest (by omega)]

/-- A first listed address is not below the other memory's: that memory would read the unwritten byte there. -/
theorem Memory.le_head_of_lookup_eq {k k' lo lo' : Nat} {v v' : Byte} {rest rest' : Memory}
    (h : Memory.wfFrom ((k, v) :: rest) lo = true) (h' : Memory.wfFrom ((k', v') :: rest') lo' = true)
    (heq : ∀ a < 65536, Memory.lookup ((k, v) :: rest) a = Memory.lookup ((k', v') :: rest') a) : k' ≤ k := by
  obtain ⟨-, hk, hv, -⟩ := Memory.wfFrom_cons_iff.mp h
  obtain ⟨-, hk', hv', hrest'⟩ := Memory.wfFrom_cons_iff.mp h'
  by_contra hlt
  have hread := heq k hk
  rw [Memory.lookup_of_lt (Memory.wfFrom_cons_iff.mpr ⟨le_rfl, hk', hv', hrest'⟩) (not_le.mp hlt), Memory.lookup,
    if_pos rfl] at hread
  exact hv hread

theorem Memory.eq_of_lookup_eq {m m' : Memory} {lo lo' : Nat} (h : m.wfFrom lo = true) (h' : m'.wfFrom lo' = true)
    (heq : ∀ a < 65536, m.lookup a = m'.lookup a) : m = m' := by
  induction m generalizing m' lo lo' with
  | nil =>
    obtain _ | ⟨⟨k', v'⟩, rest'⟩ := m'
    · rfl
    · obtain ⟨-, hk', hv', -⟩ := Memory.wfFrom_cons_iff.mp h'
      exact absurd (by simpa [Memory.lookup] using (heq k' hk').symm) hv'
  | cons c rest ih =>
    obtain ⟨k, v⟩ := c
    obtain ⟨-, hk, hv, hrest⟩ := Memory.wfFrom_cons_iff.mp h
    obtain _ | ⟨⟨k', v'⟩, rest'⟩ := m'
    · exact absurd (by simpa [Memory.lookup] using heq k hk) hv
    · obtain ⟨-, -, -, hrest'⟩ := Memory.wfFrom_cons_iff.mp h'
      obtain rfl : k = k' := le_antisymm (Memory.le_head_of_lookup_eq h' h fun a ha => (heq a ha).symm)
        (Memory.le_head_of_lookup_eq h h' heq)
      obtain rfl : v = v' := by simpa [Memory.lookup] using heq k hk
      have htail : rest = rest' := ih hrest hrest' fun a ha => by
        by_cases hak : k = a
        · rw [Memory.lookup_of_lt hrest (by omega), Memory.lookup_of_lt hrest' (by omega)]
        · simpa [Memory.lookup, hak] using heq a ha
      rw [htail]

/-- Settles O13, by induction on the two lists: first listed addresses are equal, and so are their bytes. -/
theorem canonicalMemoriesAreEqualByReads : Obligations.CanonicalMemoriesAreEqualByReads := by
  unfold Obligations.CanonicalMemoriesAreEqualByReads
  intro m m' h h' hread
  refine Memory.eq_of_lookup_eq h h' fun a ha => ?_
  simpa [Memory.read, Nat.mod_eq_of_lt ha] using hread (BitVec.ofNat 16 a)

/-! ### The bulk load (R33) -/

theorem bulkLoadMemory_cons (e : Nat × Option Byte) (rest : List (Nat × Option Byte)) (m : Memory) :
    bulkLoadMemory (e :: rest) m = bulkLoadMemory rest (m.write (BitVec.ofNat 16 e.1) (e.2.getD 0x00#8)) := rfl

theorem ofNat_ne_of_mod_ne {a : Nat} {b : Addr} (h : a % 65536 ≠ b.toNat) : b ≠ BitVec.ofNat 16 a := by
  rintro rfl
  exact h (BitVec.toNat_ofNat a 16).symm

theorem bulkLoadMemory_read_other {entries : List (Nat × Option Byte)} {m : Memory} {b : Addr}
    (h : ∀ e ∈ entries, e.1 % 65536 ≠ b.toNat) : (bulkLoadMemory entries m).read b = m.read b := by
  induction entries generalizing m with
  | nil => rfl
  | cons e rest ih =>
    obtain ⟨he, hrest⟩ := List.forall_mem_cons.mp h
    rw [bulkLoadMemory_cons, ih hrest, Memory.read_write_other _ _ (ofNat_ne_of_mod_ne he)]

theorem bulkLoadMemory_read_of_mem {entries : List (Nat × Option Byte)} {m : Memory} {a : Nat} {v : Option Byte}
    (hnodup : (entries.map (fun e => e.1 % 65536)).Nodup) (hmem : (a, v) ∈ entries) :
    (bulkLoadMemory entries m).read (BitVec.ofNat 16 a) = v.getD 0x00#8 := by
  induction entries generalizing m with
  | nil => cases hmem
  | cons e rest ih =>
    obtain ⟨hnew, hrest⟩ := List.nodup_cons.mp hnodup
    rw [bulkLoadMemory_cons]
    obtain rfl | hmem := List.mem_cons.mp hmem
    · rw [bulkLoadMemory_read_other, Memory.read_write_same]
      intro e he hsame
      exact hnew (List.mem_map.mpr ⟨e, he, by simpa using hsame⟩)
    · exact ih hrest hmem

/-- Settles O54: the entry's own write stands, since no later entry has its address. -/
theorem bulkLoadWritesEveryEntry : Obligations.BulkLoadWritesEveryEntry := by
  unfold Obligations.BulkLoadWritesEveryEntry
  exact fun entries s hnodup => ⟨fun a v hmem => bulkLoadMemory_read_of_mem hnodup hmem,
    fun b hb => bulkLoadMemory_read_other hb, rfl, rfl⟩

/-! ### The loop of `execute` (R70) -/

theorem executeLoop_of_nonpos {fuel : Nat} {s : State} {ticks : List TickRecord} (h : s.cpu.remaining ≤ 0) :
    executeLoop fuel s ticks = ⟨.completed, s, ticks⟩ := by
  cases fuel with
  | zero => rfl
  | succ n => rw [executeLoop, if_neg (not_lt.mpr h)]

theorem executeLoop_of_next {n : Nat} {s t : State} {ticks : List TickRecord} (hpos : 0 < s.cpu.remaining)
    (hstep : step s = .next t) : executeLoop (n + 1) s ticks = executeLoop n t (ticks ++ t.trace) := by
  rw [executeLoop, if_pos hpos, hstep]

theorem executeLoop_of_fault {n : Nat} {s t : State} {op : Byte} {addr : Addr} {ticks : List TickRecord}
    (hpos : 0 < s.cpu.remaining) (hstep : step s = .fault (.unsupportedOpcode op addr t)) :
    executeLoop (n + 1) s ticks = ⟨.decodeFailure op addr, t, ticks ++ t.trace⟩ := by
  rw [executeLoop, if_pos hpos, hstep]

/-- A step answers a next state or the decode failure. -/
theorem step_next_or_fault (s : State) :
    (∃ t, step s = .next t) ∨ ∃ op addr t, step s = .fault (.unsupportedOpcode op addr t) := by
  obtain ht | ⟨-, t, ht⟩ := onlyTheDecodeFailureStops.2 s
  · exact .inl ht
  · exact .inr ⟨_, _, t, ht⟩

/-- The outcomes of a loop whose states and ticks keep `I`: completed with `I`, or stopped by a failing step from a state
and ticks with `I`. -/
def EndsWith (I : State → List TickRecord → Prop) (e : Execution) : Prop :=
  (e.result = .completed ∧ I e.final e.ticks) ∨
    ∃ u tr op addr, I u tr ∧ 0 < u.cpu.remaining ∧ step u = .fault (.unsupportedOpcode op addr e.final) ∧
      e.ticks = tr ++ e.final.trace ∧ e.result = .decodeFailure op addr

/-- What every step of the loop keeps holds where the loop ends. -/
theorem executeLoop_endsWith {I : State → List TickRecord → Prop}
    (hkeep : ∀ u t tr, I u tr → 0 < u.cpu.remaining → step u = .next t → I t (tr ++ t.trace))
    (fuel : Nat) {s : State} {ticks : List TickRecord} (hI : I s ticks) : EndsWith I (executeLoop fuel s ticks) := by
  induction fuel generalizing s ticks with
  | zero => exact .inl ⟨rfl, hI⟩
  | succ n ih =>
    by_cases hpos : 0 < s.cpu.remaining
    · obtain ⟨t, ht⟩ | ⟨op, addr, t, ht⟩ := step_next_or_fault s
      · rw [executeLoop_of_next hpos ht]
        exact ih (hkeep s t ticks hI hpos ht)
      · rw [executeLoop_of_fault hpos ht]
        exact .inr ⟨s, ticks, op, addr, hI, hpos, ht, rfl, rfl⟩
    · rw [executeLoop_of_nonpos (not_lt.mp hpos)]
      exact .inl ⟨rfl, hI⟩

/-- Enough fuel for the budget left: a loop that completes has spent the budget, as every step spends a cycle. -/
theorem executeLoop_completed_nonpos {fuel : Nat} {s : State} {ticks : List TickRecord}
    (hfuel : s.cpu.remaining ≤ fuel) (hdone : (executeLoop fuel s ticks).result = .completed) :
    (executeLoop fuel s ticks).final.cpu.remaining ≤ 0 := by
  induction fuel generalizing s ticks with
  | zero => exact hfuel
  | succ n ih =>
    by_cases hpos : 0 < s.cpu.remaining
    · obtain ⟨t, ht⟩ | ⟨op, addr, t, ht⟩ := step_next_or_fault s
      · rw [executeLoop_of_next hpos ht] at hdone ⊢
        obtain ⟨-, hremaining, hticks, -⟩ := step_counters ht
        exact ih (by push_cast at hfuel; omega) hdone
      · rw [executeLoop_of_fault hpos ht] at hdone
        cases hdone
    · rw [executeLoop_of_nonpos (not_lt.mp hpos)]
      exact not_lt.mp hpos

/-- The state in which `execute` starts its loop (D5). -/
def State.withBudget (s : State) (budget : Nat) : State :=
  { s with cpu := { s.cpu with remaining := (budget : Int) } }

theorem execute_eq (budget : Nat) (s : State) : execute budget s = executeLoop budget (s.withBudget budget) [] := rfl

/-- The counters and the record after a failing step, which is the opcode fetch. -/
theorem fault_counters {s t : State} {op : Byte} {addr : Addr} (h : step s = .fault (.unsupportedOpcode op addr t)) :
    t.cpu.used = s.cpu.used + t.trace.length ∧ t.cpu.remaining = s.cpu.remaining - t.trace.length ∧
      t.trace.length = 1 := by
  obtain ⟨-, -, -, rfl⟩ := step_eq_fault h
  exact ⟨rfl, rfl, rfl⟩

/-! ### The statements about `execute` -/

/-- Every cycle since the loop began is in the record. -/
def CyclesRecorded (budget used : Nat) (s : State) (ticks : List TickRecord) : Prop :=
  s.cpu.used = used + ticks.length ∧ s.cpu.remaining = (budget : Int) - ticks.length

/-- Settles O49: the loop keeps every cycle in the record, and so does the failing step that ends it. -/
theorem executeAlwaysEnds : Obligations.ExecuteAlwaysEnds := by
  unfold Obligations.ExecuteAlwaysEnds
  intro budget s
  have hends : EndsWith (CyclesRecorded budget s.cpu.used) (execute budget s) := by
    refine executeLoop_endsWith (fun u t tr hu _ ht => ?_) budget ⟨rfl, by simp⟩
    obtain ⟨hused, hremaining, -, -⟩ := step_counters ht
    simp only [CyclesRecorded, List.length_append] at hu ⊢
    omega
  obtain ⟨hdone, hused, hremaining⟩ | ⟨u, tr, op, addr, ⟨hused, hremaining⟩, -, hfault, hticks, hresult⟩ := hends
  · exact ⟨.inl hdone, hused, hremaining⟩
  · obtain ⟨hused', hremaining', -⟩ := fault_counters hfault
    rw [hticks, List.length_append]
    exact ⟨.inr ⟨op, addr, hresult⟩, by omega, by omega⟩

/-- Settles O50: a step begins with at least one cycle left and spends at most six. -/
theorem executeOverrunsAtMostFive : Obligations.ExecuteOverrunsAtMostFive := by
  unfold Obligations.ExecuteOverrunsAtMostFive
  intro budget s hdone
  have hends : EndsWith (fun u _ => -5 ≤ u.cpu.remaining) (execute budget s) := by
    refine executeLoop_endsWith (fun u t tr _ hpos ht => ?_) budget (s := s.withBudget budget) ?_
    · obtain ⟨-, hremaining, -, hle⟩ := step_counters ht
      omega
    · simp only [State.withBudget]; omega
  obtain ⟨-, hlow⟩ | ⟨u, tr, op, addr, -, -, -, -, hresult⟩ := hends
  · exact ⟨hlow, executeLoop_completed_nonpos (s := s.withBudget budget) le_rfl hdone⟩
  · rw [hdone] at hresult
    cases hresult

/-- Settles O51: the report is that of the failing step, which ran with a cycle left and leaves the opcode fetch. -/
theorem executeReportsDecodeFailure : Obligations.ExecuteReportsDecodeFailure := by
  unfold Obligations.ExecuteReportsDecodeFailure
  intro budget s op addr hresult
  have hends : EndsWith (fun _ _ => True) (execute budget s) :=
    executeLoop_endsWith (fun _ _ _ _ _ _ => trivial) budget trivial
  obtain ⟨hdone, -⟩ | ⟨u, tr, op', addr', -, hpos, hfault, -, hresult'⟩ := hends
  · rw [hresult] at hdone
    cases hdone
  · cases hresult.symm.trans hresult'
    obtain ⟨hnone, rfl, rfl, hfinal⟩ := step_eq_fault hfault
    rw [hfinal, fetchOpcode_cpu, fetchOpcode_mem]
    refine ⟨rfl, rfl, rfl, hnone, ?_⟩
    simp only [Processor.spent]
    omega

/-- Settles O52: no pass of the loop for 0; for 1 one pass, whose step spends the cycle. -/
theorem executeZeroAndOne : Obligations.ExecuteZeroAndOne := by
  unfold Obligations.ExecuteZeroAndOne
  exact fun s => ⟨rfl, fun t ht => executeLoop_of_next (n := 0) Int.one_pos ht,
    fun op addr t ht => executeLoop_of_fault (n := 0) Int.one_pos ht⟩

/-- The steps of a run never take `used` down. -/
theorem Runs.used_le {k : Nat} {s t : State} (h : Runs k s t) : s.cpu.used ≤ t.cpu.used := by
  induction k generalizing s with
  | zero => exact h ▸ le_rfl
  | succ k ih =>
    obtain ⟨u, hu, hrun⟩ := h
    obtain ⟨hused, -, -, -⟩ := step_counters hu
    exact le_trans (by omega) (ih hrun)

/-- With as many cycles left as a run spends, and fuel for them, the loop is that run. -/
theorem executeLoop_of_runs {k fuel : Nat} {s t : State} {ticks : List TickRecord} (h : Runs k s t)
    (hremaining : s.cpu.remaining + s.cpu.used = t.cpu.used) (hfuel : s.cpu.remaining ≤ fuel) :
    (executeLoop fuel s ticks).result = .completed ∧ (executeLoop fuel s ticks).final = t ∧ t.cpu.remaining = 0 := by
  induction k generalizing fuel s ticks with
  | zero =>
    obtain rfl : s = t := h
    have hzero : s.cpu.remaining = 0 := by omega
    rw [executeLoop_of_nonpos hzero.le]
    exact ⟨rfl, rfl, hzero⟩
  | succ k ih =>
    obtain ⟨u, hu, hrun⟩ := h
    obtain ⟨hused, hleft, hticks, -⟩ := step_counters hu
    have hle := hrun.used_le
    have hpos : 0 < s.cpu.remaining := by omega
    obtain ⟨n, rfl⟩ : ∃ n, fuel = n + 1 := Nat.exists_eq_succ_of_ne_zero (by omega)
    rw [executeLoop_of_next hpos hu]
    exact ih hrun (by omega) (by omega)

/-- Settles O53, by induction on the run. -/
theorem exactBudgetRunsExactly : Obligations.ExactBudgetRunsExactly := by
  unfold Obligations.ExactBudgetRunsExactly
  intro k n s t hrun hused
  refine executeLoop_of_runs (s := s.withBudget n) hrun ?_ le_rfl
  simp only [State.withBudget, hused]
  omega

/-! ### Sessions and reset (R152, R160, R169) -/

theorem execute_final_wf (budget : Nat) {s : State} (h : s.mem.wf = true) : (execute budget s).final.mem.wf = true := by
  have hends : EndsWith (fun u _ => u.mem.wf = true) (execute budget s) := by
    refine executeLoop_endsWith (fun u t tr hu _ ht => ?_) budget (s := s.withBudget budget) h
    obtain ⟨n, -, -, hrun⟩ := busRun_of_step_eq_next ht
    exact hrun.mem_wf hu
  obtain ⟨-, hwf⟩ | ⟨u, tr, op, addr, hwf, -, hfault, -, -⟩ := hends
  · exact hwf
  · obtain ⟨-, -, -, hfinal⟩ := step_eq_fault hfault
    rw [hfinal, fetchOpcode_mem]
    exact hwf

theorem hostCall_wf (c : HostCall) {s : State} (h : s.mem.wf = true) : (hostCall c s).mem.wf = true := by
  cases c with
  | bulkLoad entries => exact bulkLoadMemory_wf entries h
  | write a v => exact Memory.write_wf a v h
  | reset pc0 => exact h
  | execute budget => exact execute_final_wf budget h

/-- Settles O42, by induction on the calls. -/
theorem sessionKeepsMemoryCanonical : Obligations.SessionKeepsMemoryCanonical := by
  unfold Obligations.SessionKeepsMemoryCanonical
  intro calls s h
  induction calls generalizing s with
  | nil => exact h
  | cons c calls ih => exact ih (hostCall c s) (hostCall_wf c h)

/-- Settles O43: the reset processor is written out, and memory is not touched. -/
theorem resetValues : Obligations.ResetValues := by
  unfold Obligations.ResetValues
  exact fun pc0 s => ⟨rfl, rfl, rfl, fun _ => rfl, rfl⟩

/-- Settles O44: the first step reads 0x00, which has no row. -/
theorem unloadedMachineReportsDecodeFailure : Obligations.UnloadedMachineReportsDecodeFailure := by
  unfold Obligations.UnloadedMachineReportsDecodeFailure
  intro pc0 budget
  have hfault := step_of_noRow (s := (resetProcessor pc0 State.reset).withBudget (budget + 1)) rfl
  rw [execute_eq, executeLoop_of_fault (Int.natCast_pos.mpr budget.succ_pos) hfault]
  rfl

end Sys2Proof.Machine

/-! What each instruction does in every state (41_load_store.md, 42_jumps_calls.md, 43_stack.md), and the operations and
modes behind it: each meaning is a handler on what its mode resolves to. -/

namespace Sys2Proof.Machine

/-! ### What a mode resolves to (R76 to R88) -/

/-- The resolver's answer `r` from `s`: the address `ea`, after `len` operand bytes and the events `es`, a tick each; it
changes nothing else. -/
structure ResolvesTo (s : State) (r : Addr × State) (len ea : Addr) (es : List BusEvent) : Prop where
  addr_eq : r.1 = ea
  cpu_eq : r.2.cpu = s.cpu.spent len es.length
  mem_eq : r.2.mem = s.mem
  events_eq : r.2.events = s.events ++ es

theorem operandEvents_length (pc w : Addr) : (operandEvents pc w).length = 2 := rfl

section
variable (b : Byte) (w : Addr) (s : State)

theorem resolveZeroPage_resolvesTo : ResolvesTo s (resolveZeroPage b s) 1 (zext16 b) [.read s.cpu.pc b] :=
  ⟨rfl, resolveZeroPage_cpu b s, resolveZeroPage_mem b s, resolveZeroPage_events b s⟩

theorem resolveZeroPageX_resolvesTo :
    ResolvesTo s (resolveZeroPageX b s) 1 (zext16 (b + s.cpu.x)) [.read s.cpu.pc b, .internal] :=
  ⟨rfl, resolveZeroPageX_cpu b s, resolveZeroPageX_mem b s, resolveZeroPageX_events b s⟩

theorem resolveZeroPageY_resolvesTo :
    ResolvesTo s (resolveZeroPageY b s) 1 (zext16 (b + s.cpu.y)) [.read s.cpu.pc b, .internal] :=
  ⟨rfl, resolveZeroPageY_cpu b s, resolveZeroPageY_mem b s, resolveZeroPageY_events b s⟩

theorem resolveAbsolute_resolvesTo : ResolvesTo s (resolveAbsolute w s) 2 w (operandEvents s.cpu.pc w) :=
  ⟨rfl, resolveAbsolute_cpu w s, resolveAbsolute_mem w s, resolveAbsolute_events w s⟩

theorem resolveAbsoluteX_resolvesTo :
    ResolvesTo s (resolveAbsoluteX w s) 2 (w + zext16 s.cpu.x)
      (operandEvents s.cpu.pc w ++ crossEvents w (w + zext16 s.cpu.x)) :=
  ⟨rfl, by rw [resolveAbsoluteX_cpu, List.length_append, operandEvents_length, crossEvents_length],
    resolveAbsoluteX_mem w s, resolveAbsoluteX_events w s⟩

theorem resolveAbsoluteY_resolvesTo :
    ResolvesTo s (resolveAbsoluteY w s) 2 (w + zext16 s.cpu.y)
      (operandEvents s.cpu.pc w ++ crossEvents w (w + zext16 s.cpu.y)) :=
  ⟨rfl, by rw [resolveAbsoluteY_cpu, List.length_append, operandEvents_length, crossEvents_length],
    resolveAbsoluteY_mem w s, resolveAbsoluteY_events w s⟩

theorem resolveIndirect_resolvesTo :
    ResolvesTo s (resolveIndirect w s) 2 (wordAt s.mem w)
      (operandEvents s.cpu.pc w ++ [readEvent s.mem w, readEvent s.mem (w + 1)]) :=
  ⟨rfl, resolveIndirect_cpu w s, resolveIndirect_mem w s, resolveIndirect_events w s⟩

theorem resolveIndirectX_resolvesTo :
    ResolvesTo s (resolveIndirectX b s) 1 (wordAt s.mem (zext16 (b + s.cpu.x)))
      [.read s.cpu.pc b, .internal, readEvent s.mem (zext16 (b + s.cpu.x)),
        readEvent s.mem (zext16 (b + s.cpu.x) + 1)] :=
  ⟨rfl, resolveIndirectX_cpu b s, resolveIndirectX_mem b s, resolveIndirectX_events b s⟩

theorem resolveIndirectY_resolvesTo :
    ResolvesTo s (resolveIndirectY b s) 1 (wordAt s.mem (zext16 b) + zext16 s.cpu.y)
      ([.read s.cpu.pc b, readEvent s.mem (zext16 b), readEvent s.mem (zext16 b + 1)] ++
        crossEvents (wordAt s.mem (zext16 b)) (wordAt s.mem (zext16 b) + zext16 s.cpu.y)) :=
  ⟨rfl, by rw [resolveIndirectY_cpu, List.length_append, crossEvents_length]; rfl, resolveIndirectY_mem b s,
    resolveIndirectY_events b s⟩

end

/-! ### Loads, stores and jumps on what is resolved (R100, R111) -/

section
variable {i : Instr} {tag : Tag} {s : State} {r : Addr × State} {len ea : Addr} {es : List BusEvent}

theorem ResolvesTo.loadsFrom (h : ResolvesTo s r len ea es) (hexec : exec i s = .next (loadFrom tag r)) :
    LoadsFrom i tag s len ea es := by
  obtain ⟨haddr, hcpu, hmem, hevents⟩ := h
  exact ⟨_, hexec, by simp [haddr, hcpu, hmem], by simp [hmem], by simp [haddr, hmem, hevents, readEvent]⟩

theorem ResolvesTo.storesTo (h : ResolvesTo s r len ea es) (hexec : exec i s = .next (storeTo tag r)) :
    StoresTo i tag s len ea es := by
  obtain ⟨haddr, hcpu, hmem, hevents⟩ := h
  exact ⟨_, hexec, by simp [hcpu], by simp [haddr, hcpu, hmem], by simp [haddr, hcpu, hevents]⟩

theorem ResolvesTo.jumpsTo (h : ResolvesTo s r len ea es) (hexec : exec i s = .next (jumpTo r)) :
    Answers i s { s.cpu.spent len es.length with pc := ea } s.mem es := by
  obtain ⟨haddr, hcpu, hmem, hevents⟩ := h
  exact ⟨_, hexec, by simp [haddr, hcpu], by simp [hmem], by simp [hevents]⟩

theorem answers_of_loadValue {v : Byte} (hexec : exec i s = .next (loadValue tag v (takeByte v s))) :
    Answers i s ((s.cpu.spent 1 1).loaded tag v) s.mem [.read s.cpu.pc v] :=
  ⟨_, hexec, by simp, by simp, by simp⟩

end

/-- Settles O24: the load handler on the immediate value, or on what the mode resolves to. -/
theorem loadAccumulatorForms : Obligations.LoadAccumulatorForms := by
  unfold Obligations.LoadAccumulatorForms
  intro s v b w
  exact ⟨answers_of_loadValue (exec_ldaImmediate v s), (resolveZeroPage_resolvesTo b s).loadsFrom rfl,
    (resolveZeroPageX_resolvesTo b s).loadsFrom rfl, (resolveAbsolute_resolvesTo w s).loadsFrom rfl,
    (resolveAbsoluteX_resolvesTo w s).loadsFrom rfl, (resolveAbsoluteY_resolvesTo w s).loadsFrom rfl,
    (resolveIndirectX_resolvesTo b s).loadsFrom rfl, (resolveIndirectY_resolvesTo b s).loadsFrom rfl⟩

/-- Settles O25, as for LDA. -/
theorem loadIndexXForms : Obligations.LoadIndexXForms := by
  unfold Obligations.LoadIndexXForms
  intro s v b w
  exact ⟨answers_of_loadValue (exec_ldxImmediate v s), (resolveZeroPage_resolvesTo b s).loadsFrom rfl,
    (resolveZeroPageY_resolvesTo b s).loadsFrom rfl, (resolveAbsolute_resolvesTo w s).loadsFrom rfl,
    (resolveAbsoluteY_resolvesTo w s).loadsFrom rfl⟩

/-- Settles O26, as for LDA. -/
theorem loadIndexYForms : Obligations.LoadIndexYForms := by
  unfold Obligations.LoadIndexYForms
  intro s v b w
  exact ⟨answers_of_loadValue (exec_ldyImmediate v s), (resolveZeroPage_resolvesTo b s).loadsFrom rfl,
    (resolveZeroPageX_resolvesTo b s).loadsFrom rfl, (resolveAbsolute_resolvesTo w s).loadsFrom rfl,
    (resolveAbsoluteX_resolvesTo w s).loadsFrom rfl⟩

/-- Settles O27: the store handler on what the mode resolves to. -/
theorem storeAccumulatorForms : Obligations.StoreAccumulatorForms := by
  unfold Obligations.StoreAccumulatorForms
  intro s b w
  exact ⟨(resolveZeroPage_resolvesTo b s).storesTo rfl, (resolveZeroPageX_resolvesTo b s).storesTo rfl,
    (resolveAbsolute_resolvesTo w s).storesTo rfl, (resolveAbsoluteX_resolvesTo w s).storesTo rfl,
    (resolveAbsoluteY_resolvesTo w s).storesTo rfl, (resolveIndirectX_resolvesTo b s).storesTo rfl,
    (resolveIndirectY_resolvesTo b s).storesTo rfl⟩

/-- Settles O28, as for STA. -/
theorem storeIndexForms : Obligations.StoreIndexForms := by
  unfold Obligations.StoreIndexForms
  intro s b w
  exact ⟨(resolveZeroPage_resolvesTo b s).storesTo rfl, (resolveZeroPageY_resolvesTo b s).storesTo rfl,
    (resolveAbsolute_resolvesTo w s).storesTo rfl, (resolveZeroPage_resolvesTo b s).storesTo rfl,
    (resolveZeroPageX_resolvesTo b s).storesTo rfl, (resolveAbsolute_resolvesTo w s).storesTo rfl⟩

/-! ### Jumps, calls and the stack family (R111 to R113, R121 to R126) -/

/-- The address of the last byte of a JSR, from the state after its operand word. -/
theorem add_two_sub_one (a : Addr) : a + 2#16 - 1#16 = a + 1#16 := by bv_omega

/-- Settles O29: `PC` is what the mode resolves to. -/
theorem jumpForms : Obligations.JumpForms := by
  unfold Obligations.JumpForms
  intro s w
  exact ⟨(resolveAbsolute_resolvesTo w s).jumpsTo rfl, (resolveIndirect_resolvesTo w s).jumpsTo rfl⟩

theorem answers_jsr (s : State) (w : Addr) :
    Answers (.jsrAbsolute w) s { s.cpu.spent 2 5 with sp := s.cpu.sp - 2, pc := w }
      ((s.mem.write (stackAddr s.cpu.sp) (highByte (s.cpu.pc + 1))).write (stackAddr (s.cpu.sp - 1))
        (lowByte (s.cpu.pc + 1)))
      (operandEvents s.cpu.pc w ++ [.write (stackAddr s.cpu.sp) (highByte (s.cpu.pc + 1)),
        .write (stackAddr (s.cpu.sp - 1)) (lowByte (s.cpu.pc + 1)), .internal]) := by
  refine ⟨_, exec_jsrAbsolute w s, ?_, ?_, ?_⟩
  · simp [Processor.spent]; omega
  · simp [add_two_sub_one]
  · simp [add_two_sub_one]

theorem answers_rts (s : State) :
    Answers .rts s { s.cpu.spent 0 3 with
        sp := s.cpu.sp + 2
        pc := joinBytes (s.mem.read (stackAddr (s.cpu.sp + 2))) (s.mem.read (stackAddr (s.cpu.sp + 1))) + 1 }
      s.mem [readEvent s.mem (stackAddr (s.cpu.sp + 1)), readEvent s.mem (stackAddr (s.cpu.sp + 2)), .internal] :=
  ⟨_, exec_rts s, by simp, by simp, by simp⟩

/-- Settles O30: the two meanings above. -/
theorem callAndReturn : Obligations.CallAndReturn := by
  unfold Obligations.CallAndReturn
  exact fun s w => ⟨answers_jsr s w, answers_rts s⟩

/-- Settles O32: one push of the image; one pull, then the load handler or all seven flags. -/
theorem statusPushAndPulls : Obligations.StatusPushAndPulls := by
  unfold Obligations.StatusPushAndPulls
  intro s
  exact ⟨⟨_, exec_php s, by simp, by simp, by simp⟩, ⟨_, exec_pla s, by simp, by simp, by simp [readEvent]⟩,
    ⟨_, exec_plp s, by simp, by simp, by simp [readEvent]⟩⟩

/-- Settles O33: the load handler on the stack offset; the write of `SP`. -/
theorem stackPointerTransfers : Obligations.StackPointerTransfers := by
  unfold Obligations.StackPointerTransfers
  intro s
  exact ⟨⟨_, exec_tsx s, by simp, by simp, by simp⟩, ⟨_, exec_txs s, by simp, by simp, by simp⟩⟩

/-! ### The primitives and the modes in arithmetic -/

/-- Settles O11: read after write for the byte written; the two reads of a word carry its bytes. -/
theorem writeByteAndReadWordEffects : Obligations.WriteByteAndReadWordEffects := by
  unfold Obligations.WriteByteAndReadWordEffects
  intro a v s
  refine ⟨fun b => ?_, rfl, writeByte_events a v s, fun hiAddr hhi => ?_, rfl, ?_⟩
  · rw [writeByte_mem, Memory.read_write]
  · obtain rfl : hiAddr = a + 1 := BitVec.eq_of_toNat_eq (hhi.trans (BitVec.toNat_add a 1).symm)
    exact ⟨joinBytes_toNat _ _, by simp⟩
  · simp [Processor.spent, Int.sub_sub]

/-- Settles O20: the layout and its inverse for the 128 flag records, the mask for the 256 bytes. -/
theorem flagByteImageLayout : Obligations.FlagByteImageLayout := by
  unfold Obligations.FlagByteImageLayout
  refine ⟨?_, unpackP_packP, by decide⟩
  rintro ⟨c, z, i, d, b, v, n⟩
  revert c z i d b v n
  decide

theorem wordAt_toNat (m : Memory) (a : Addr) :
    (wordAt m a).toNat = (m.read (a + 1)).toNat * 256 + (m.read a).toNat := joinBytes_toNat _ _

/-- An index crosses a page when it carries out of the low byte (R88). -/
theorem cross_add_zext16 (w : Addr) (k : Byte) :
    cross w (w + zext16 k) = decide (256 ≤ w.toNat % 256 + k.toNat) := by
  have hw := w.isLt
  have hk := k.isLt
  rw [Bool.eq_iff_iff, cross, bne_iff_ne, ne_eq, BitVec.toNat_eq]
  simp only [highByte_toNat, BitVec.toNat_add, zext16_toNat, decide_eq_true_eq]
  omega

theorem operandEvents_wordAt (m : Memory) (pc : Addr) :
    operandEvents pc (wordAt m pc) = [readEvent m pc, readEvent m (pc + 1)] := by
  simp [operandEvents, wordAt, readEvent]

/-- The ticks of an absolute indexed mode by the sum of the operand's low byte and the index: a page is crossed from 256
on (R83, R84, R88). -/
theorem ResolvesTo.ticks_of_indexed {s : State} {r : Addr × State} {ea : Addr} {k : Byte}
    (h : ResolvesTo s r 2 ea (operandEvents s.cpu.pc (wordAt s.mem s.cpu.pc) ++
      crossEvents (wordAt s.mem s.cpu.pc) (wordAt s.mem s.cpu.pc + zext16 k))) :
    ((s.mem.read s.cpu.pc).toNat + k.toNat < 256 → r.2.cpu = s.cpu.spent 2 2 ∧
      r.2.events = s.events ++ [readEvent s.mem s.cpu.pc, readEvent s.mem (s.cpu.pc + 1)]) ∧
    (256 ≤ (s.mem.read s.cpu.pc).toNat + k.toNat → r.2.cpu = s.cpu.spent 2 3 ∧
      r.2.events = s.events ++ [readEvent s.mem s.cpu.pc, readEvent s.mem (s.cpu.pc + 1)] ++ [.internal]) := by
  obtain ⟨-, hcpu, -, hevents⟩ := h
  have hlo := (s.mem.read s.cpu.pc).isLt
  have hlow : (wordAt s.mem s.cpu.pc).toNat % 256 = (s.mem.read s.cpu.pc).toNat := by
    rw [wordAt_toNat]; omega
  rw [hcpu, hevents, operandEvents_wordAt, crossEvents, cross_add_zext16, hlow]
  refine ⟨fun hsum => ?_, fun hsum => ?_⟩
  · simp [show ¬ 256 ≤ (s.mem.read s.cpu.pc).toNat + k.toNat by omega]
  · simp [hsum]

theorem wordAt_add_zext16_toNat (m : Memory) (a : Addr) (k : Byte) :
    (wordAt m a + zext16 k).toNat =
      ((m.read (a + 1)).toNat * 256 + (m.read a).toNat + k.toNat) % 65536 := by
  rw [BitVec.toNat_add, wordAt_toNat, zext16_toNat]

/-- Settles O16: the sums as numbers, the page crossing as a carry. -/
theorem resolverIndexedModes : Obligations.ResolverIndexedModes := by
  unfold Obligations.ResolverIndexedModes
  intro s
  refine ⟨⟨_, _, resolve_zeroPageY s, ?_, resolveZeroPageY_cpu _ s, resolveZeroPageY_mem _ s,
      resolveZeroPageY_events _ s⟩,
    ⟨_, _, resolve_absoluteX s, wordAt_add_zext16_toNat _ _ _, resolveAbsoluteX_mem _ s,
      (resolveAbsoluteX_resolvesTo _ s).ticks_of_indexed⟩,
    ⟨_, _, resolve_absoluteY s, wordAt_add_zext16_toNat _ _ _, resolveAbsoluteY_mem _ s,
      (resolveAbsoluteY_resolvesTo _ s).ticks_of_indexed⟩⟩
  rw [zext16_toNat, BitVec.toNat_add]

/-- Settles O17: each mode of the sequencer is the decoded instruction's resolver on the operand at `PC`. -/
theorem resolverIndirectModes : Obligations.ResolverIndirectModes := by
  unfold Obligations.ResolverIndirectModes
  intro s
  refine ⟨⟨_, resolve_indirect s, resolveIndirect_cpu _ s, resolveIndirect_mem _ s, ?_⟩,
    ⟨_, resolve_indirectX s, ?_, resolveIndirectX_cpu _ s, resolveIndirectX_mem _ s, ?_⟩,
    ⟨_, _, resolve_indirectY s, ?_, resolveIndirectY_mem _ s, ?_, ?_⟩⟩
  · rw [resolveIndirect_events, operandEvents_wordAt]; rfl
  · rw [zext16_toNat, BitVec.toNat_add]
  · rw [resolveIndirectX_events]; rfl
  · rw [BitVec.toNat_add, zext16_toNat]
  · rw [resolveIndirectY_cpu, crossEvents_length]
  · rw [resolveIndirectY_events, List.append_assoc]; rfl

/-! ### Two bytes on the stack (R92, R94) -/

theorem stackAddr_inj {o p : Byte} : stackAddr o = stackAddr p ↔ o = p :=
  ⟨fun h => by simpa [stackAddr] using congrArg lowByte h, congrArg stackAddr⟩

theorem stackAddr_sub_one_ne (o : Byte) : stackAddr (o - 1) ≠ stackAddr o := by
  rw [ne_eq, stackAddr_inj]
  bv_omega

theorem push16_read_high (w : Addr) (s : State) : (push16 w s).mem.read (stackAddr s.cpu.sp) = highByte (w - 1) := by
  rw [push16_mem, Memory.read_write_other _ _ (stackAddr_sub_one_ne s.cpu.sp).symm, Memory.read_write_same]

theorem push16_read_low (w : Addr) (s : State) :
    (push16 w s).mem.read (stackAddr (s.cpu.sp - 1)) = lowByte (w - 1) := by
  rw [push16_mem, Memory.read_write_same]

/-- Settles O22: the bytes pushed are the bytes pulled, the one less and the one more cancel. -/
theorem pullSixteenInvertsPushSixteen : Obligations.PullSixteenInvertsPushSixteen := by
  unfold Obligations.PullSixteenInvertsPushSixteen
  intro w s
  have htwo : s.cpu.sp - 2 + 2 = s.cpu.sp := BitVec.sub_add_cancel _ _
  have hone : s.cpu.sp - 2 + 1 = s.cpu.sp - 1 := by bv_omega
  refine ⟨push16_read_high w s, push16_read_low w s, fun a hhigh hlow => ?_, ?_, ?_, ?_, ?_, ?_⟩
  · rw [push16_mem, Memory.read_write_other _ _ hlow, Memory.read_write_other _ _ hhigh]
  · simp [Processor.spent]
  · rw [pull16_fst, BitVec.toNat_add, joinBytes_toNat]; rfl
  · simp [Processor.spent]
  · rw [pull16_fst, push16_cpu, htwo, hone, push16_read_high, push16_read_low, joinBytes_high_low,
      BitVec.sub_add_cancel]
  · rw [pull16_cpu, push16_cpu, htwo]

/-! ### The views at the last tick (R75, R154) -/

theorem loadFrom_trace (t : Tag) (r : Addr × State) :
    (loadFrom t r).trace = r.2.trace ++ [⟨.read r.1 (r.2.mem.read r.1), r.2.cpu.tick⟩] := loadValue_trace t _ _

/-- Settles O47: JSR ends in an internal tick; the load handler comes after the data read, and the new `SP` after the
push. -/
theorem observerSeesStateBetweenTicks : Obligations.ObserverSeesStateBetweenTicks := by
  unfold Obligations.ObserverSeesStateBetweenTicks
  intro s w
  refine ⟨⟨_, _, exec_jsrAbsolute w s, List.getLast?_concat, rfl, rfl⟩,
    ⟨_, (resolveAbsolute w s).2.cpu.tick, exec_ldaAbsolute w s, ?_, rfl, rfl, ?_⟩,
    ⟨_, _, exec_pha s, List.getLast?_concat, rfl, rfl⟩⟩
  · rw [loadFrom_trace, List.getLast?_concat]; rfl
  · rw [loadFrom_cpu, Processor.loaded_used, Processor.tick_eq]

end Sys2Proof.Machine

/-! Frames of the instructions and what a step keeps (10_state.md, 20_memory.md section 4), and two steps in a row: a
fetch after a store, an RTS after a JSR. -/

namespace Sys2Proof.Machine

/-! ### Registers, memory and `PC` (R11 to R14, R17, R74) -/

/-- Settles O35, by the laws of each meaning's handler and resolver on the register asked for. -/
theorem registerFrame : Obligations.RegisterFrame := by
  unfold Obligations.RegisterFrame
  intro i s t ht
  cases i
  all_goals
    cases ht
    simp [Instr.operation, Operation.writesSp]

/-- JSR apart, an instruction without a byte to store leaves memory as it is. -/
theorem exec_mem_of_storedByte_none {i : Instr} {s t : State} (ht : exec i s = .next t)
    (hnone : storedByte i.operation s.cpu = none) (hjsr : i.operation ≠ .jsr) : t.mem = s.mem := by
  cases i <;> cases hnone
  case jsrAbsolute => exact absurd rfl hjsr
  all_goals cases ht; simp

theorem storedAddrs_jsr (w : Addr) (s : State) :
    storedAddrs (.jsrAbsolute w) s = [stackAddr s.cpu.sp, stackAddr (s.cpu.sp - 1)] := rfl

theorem eq_jsrAbsolute_of_operation {i : Instr} (h : i.operation = .jsr) : ∃ w, i = .jsrAbsolute w := by
  cases i <;> cases h
  exact ⟨_, rfl⟩

/-- Settles O36: one byte at one address, JSR's two stack bytes, or nothing. -/
theorem memoryFrame : Obligations.MemoryFrame := by
  unfold Obligations.MemoryFrame
  intro i s t ht
  by_cases hjsr : i.operation = .jsr
  · obtain ⟨w, rfl⟩ := eq_jsrAbsolute_of_operation hjsr
    obtain ⟨u, hu, -, hmem, -⟩ := answers_jsr s w
    cases hu.symm.trans ht
    rw [storedAddrs_jsr, hmem]
    refine ⟨fun a ha => ?_, fun hnil => nomatch hnil⟩
    obtain ⟨hhigh, hlow⟩ : a ≠ stackAddr s.cpu.sp ∧ a ≠ stackAddr (s.cpu.sp - 1) := by simpa using ha
    rw [Memory.read_write_other _ _ hlow, Memory.read_write_other _ _ hhigh]
  · cases hv : storedByte i.operation s.cpu with
    | some v =>
      obtain ⟨u, ea, hu, haddrs, hmem, -⟩ := exec_of_storedByte i s v hv
      cases hu.symm.trans ht
      rw [haddrs, hmem]
      exact ⟨fun a ha => Memory.read_write_other _ _ (List.ne_of_not_mem_cons ha), fun hnil => nomatch hnil⟩
    | none =>
      have hmem := exec_mem_of_storedByte_none ht hv hjsr
      exact ⟨fun a _ => by rw [hmem], fun _ => hmem⟩

/-- `PC` past the operand, counted from the opcode byte. -/
theorem exec_pc_of_not_transfers {i : Instr} {s t : State} (ht : exec i s = .next t)
    (hno : i.operation.transfers = false) : t.cpu.pc + 1 = s.cpu.pc + BitVec.ofNat 16 i.mode.length := by
  cases i <;> cases hno
  all_goals
    cases ht
    simp [Instr.mode, Mode.length, BitVec.add_assoc]

/-- The opcode fetch has already moved `PC` by one. -/
theorem pc_eq_of_succ_eq {s t : State} {len : Addr} (h : t.cpu.pc + 1 = (fetchOpcode s).cpu.pc + len) :
    t.cpu.pc = s.cpu.pc + len := by
  have hfetch : (fetchOpcode s).cpu.pc = s.cpu.pc + 1 := rfl
  rw [hfetch] at h
  bv_omega

theorem Mode.ofNat_length_toNat (m : Mode) : (BitVec.ofNat 16 m.length).toNat = m.length := by cases m <;> rfl

/-- Settles O37: the meaning ends past its operand. -/
theorem pcAdvancesByLength : Obligations.PcAdvancesByLength := by
  unfold Obligations.PcAdvancesByLength
  intro i s hbytes hno
  obtain ⟨t, ht⟩ := exec_eq_next i (fetchOpcode s)
  refine ⟨t, (step_of_bytesAt hbytes).trans ht, ?_⟩
  rw [pc_eq_of_succ_eq (exec_pc_of_not_transfers ht hno), BitVec.toNat_add, Mode.ofNat_length_toNat]

/-! ### The counters (R17, R150) -/

/-- `u` is `s` for the program: registers, `PC`, flags, `lastOpcode`, memory and bus events, not the counters. -/
structure SeenAlike (s u : State) : Prop where
  registers : u.cpu.sameRegisters s.cpu
  flags : u.cpu.flags = s.cpu.flags
  lastOpcode : u.cpu.lastOpcode = s.cpu.lastOpcode
  mem : u.mem = s.mem
  events : u.events = s.events

/-- No meaning reads a counter. -/
theorem SeenAlike.exec {i : Instr} {s t u : State} (h : SeenAlike s u) (ht : exec i s = .next t) :
    ∃ t', exec i u = .next t' ∧ SeenAlike t t' := by
  obtain ⟨⟨ha, hx, hy, hsp, hpc⟩, hflags, hlast, hmem, hevents⟩ := h
  cases i
  all_goals
    cases ht
    refine ⟨_, rfl, ?_⟩
    constructor <;> simp [Processor.sameRegisters, ha, hx, hy, hsp, hpc, hflags, hlast, hmem, hevents]

/-- Settles O45: after the opcode fetch, which writes `lastOpcode`, the two states are seen alike. -/
theorem countersInfluenceNothing : Obligations.CountersInfluenceNothing := by
  unfold Obligations.CountersInfluenceNothing
  intro s t r u o ht
  obtain ⟨i, hbytes, hexec⟩ := step_eq_next ht
  have hfetch : SeenAlike (fetchOpcode s)
      (fetchOpcode { s with cpu := { s.cpu with remaining := r, used := u, lastOpcode := o } }) :=
    ⟨⟨rfl, rfl, rfl, rfl, rfl⟩, rfl, rfl, rfl, rfl⟩
  obtain ⟨t', ht', hregisters, hflags, hlast, hmem, hevents⟩ := hfetch.exec hexec
  refine ⟨t', (step_of_bytesAt ?_).trans ht', hregisters, hflags, hlast, hmem, hevents⟩
  exact hbytes

/-! ### JSR and RTS as steps (R112, R113) -/

/-- A step at a JSR: the address of its last byte on the stack, `PC` at the target, six cycles. -/
theorem step_jsr {s : State} {w : Addr} (hbytes : BytesAt s.mem s.cpu.pc (encode (.jsrAbsolute w))) :
    ∃ t, step s = .next t ∧
      t.cpu = { s.cpu.spent 0 6 with sp := s.cpu.sp - 2, pc := w, lastOpcode := 0x20#8 } ∧
      t.mem = (s.mem.write (stackAddr s.cpu.sp) (highByte (s.cpu.pc + 2))).write (stackAddr (s.cpu.sp - 1))
        (lowByte (s.cpu.pc + 2)) := by
  obtain ⟨t, ht, hcpu, hmem, -⟩ := answers_jsr (fetchOpcode s) w
  have hlast : (fetchOpcode s).cpu.pc + 1 = s.cpu.pc + 2 := BitVec.add_assoc s.cpu.pc 1 1
  refine ⟨t, (step_of_bytesAt hbytes).trans ht, ?_, ?_⟩
  · rw [hcpu, fetchOpcode_cpu_of_bytesAt hbytes]
    simp [Processor.spent, Instr.opcode]
    omega
  · rw [hmem, hlast]
    rfl

/-- A step at an RTS: `PC` at the pulled word plus one, four cycles. -/
theorem step_rts {s : State} (hop : s.mem.read s.cpu.pc = 0x60#8) :
    ∃ t, step s = .next t ∧
      t.cpu = { s.cpu.spent 0 4 with
        sp := s.cpu.sp + 2
        pc := joinBytes (s.mem.read (stackAddr (s.cpu.sp + 2))) (s.mem.read (stackAddr (s.cpu.sp + 1))) + 1
        lastOpcode := 0x60#8 } := by
  obtain ⟨t, ht, hcpu, -⟩ := answers_rts (fetchOpcode s)
  refine ⟨t, (step_of_implied (i := .rts) rfl hop).trans ht, ?_⟩
  rw [hcpu, fetchOpcode_cpu, hop]
  simp [Processor.spent]
  omega

/-- Settles O48: the RTS pulls the word that the JSR pushed. -/
theorem jsrThenRtsReturns : Obligations.JsrThenRtsReturns := by
  unfold Obligations.JsrThenRtsReturns
  intro s w hbytes hrts hhigh hlow
  obtain ⟨u, hu, hucpu, humem⟩ := step_jsr hbytes
  have hop : u.mem.read u.cpu.pc = 0x60#8 := by
    rw [humem, hucpu, Memory.read_write_other _ _ hlow, Memory.read_write_other _ _ hhigh, hrts]
  obtain ⟨t, ht, htcpu⟩ := step_rts hop
  have htwo : s.cpu.sp - 2 + 2 = s.cpu.sp := BitVec.sub_add_cancel _ _
  have hone : s.cpu.sp - 2 + 1 = s.cpu.sp - 1 := by bv_omega
  have hpulled : joinBytes (u.mem.read (stackAddr s.cpu.sp)) (u.mem.read (stackAddr (s.cpu.sp - 1))) =
      s.cpu.pc + 2 := by
    rw [humem, Memory.read_write_other _ _ (stackAddr_sub_one_ne s.cpu.sp).symm, Memory.read_write_same,
      Memory.read_write_same, joinBytes_high_low]
  rw [hucpu] at htcpu
  dsimp only [Processor.spent] at htcpu
  rw [htwo, hone, hpulled, BitVec.add_assoc] at htcpu
  refine ⟨u, t, hu, congrArg Processor.pc hucpu, ht, ?_⟩
  rw [htcpu]
  exact ⟨rfl, rfl, rfl, rfl, rfl, rfl, rfl⟩

/-! ### A fetch after a store (R49) -/

/-- The byte to store is the same before and after the opcode fetch, which writes none of the registers stored. -/
theorem storedByte_fetchOpcode (op : Operation) (s : State) :
    storedByte op (fetchOpcode s).cpu = storedByte op s.cpu := by
  cases op <;> rfl

/-- A step at LDA immediate (R101). -/
theorem step_ldaImmediate {s : State} {v : Byte} (hbytes : BytesAt s.mem s.cpu.pc (encode (.ldaImmediate v))) :
    ∃ t, step s = .next t ∧ t.cpu = { (s.cpu.spent 2 2).loaded .a v with lastOpcode := 0xA9#8 } ∧ t.mem = s.mem ∧
      t.events = [.read s.cpu.pc 0xA9#8, .read (s.cpu.pc + 1) v] := by
  obtain ⟨t, ht, hcpu, hmem, hevents⟩ := answers_of_loadValue (exec_ldaImmediate v (fetchOpcode s))
  refine ⟨t, (step_of_bytesAt hbytes).trans ht, ?_, hmem, ?_⟩
  · rw [hcpu, fetchOpcode_cpu_of_bytesAt hbytes]
    simp [Processor.spent, Processor.loaded, Instr.opcode, BitVec.add_assoc, Int.sub_sub]
  · rw [hevents, fetchOpcode_events, hbytes.1]
    rfl

/-- Settles O46: the stored byte is read where it was stored, as opcode or operand of the next instruction too. -/
theorem storeIsSeenByNextFetch : Obligations.StoreIsSeenByNextFetch := by
  unfold Obligations.StoreIsSeenByNextFetch
  refine fun s => ⟨fun i v hbytes hv => ?_, fun w hbytes => ?_⟩
  · obtain ⟨t, ea, ht, haddrs, hmem, hpc⟩ :=
      exec_of_storedByte i (fetchOpcode s) v ((storedByte_fetchOpcode i.operation s).trans hv)
    have hread : t.mem.read ea = v := by rw [hmem, Memory.read_write_same]
    refine ⟨t, ea, (step_of_bytesAt hbytes).trans ht, pc_eq_of_succ_eq hpc, haddrs, hread, ?_, ?_⟩
    · rintro rfl
      refine ⟨hread, ?_⟩
      rintro rfl
      exact nopOnlyFetches.2.1 t hread
    · rintro rfl hlda
      exact step_ldaImmediate ⟨hlda, hread, trivial⟩
  · obtain ⟨t, ht, hcpu, hmem⟩ := step_jsr hbytes
    have hpc : t.cpu.pc = w := congrArg Processor.pc hcpu
    refine ⟨t, ht, hpc, ?_, ?_⟩
    · rintro rfl
      rw [nextOpcode, hpc, hmem, Memory.read_write_other _ _ (stackAddr_sub_one_ne s.cpu.sp).symm,
        Memory.read_write_same]
    · rintro rfl
      rw [nextOpcode, hpc, hmem, Memory.read_write_same]

end Sys2Proof.Machine
